-- ==== Sys2Proof/Word.lean ====
section
/-! DEFINITION. The widths of the machine (00_scope R6): the 16-bit word, the 8-bit console character and
the register index. -/

namespace Sys2Proof

/-- A Word: every register, memory cell, address and instruction is one (R6, R9). `+`, `-`, `~~~` wrap modulo 2^16. -/
abbrev Word := BitVec 16

/-- A console character (R6, CHAR_BITS = 8). -/
abbrev Byte := BitVec 8

/-- The index of a general register, R0 to R7 (R16). -/
abbrev Reg := Fin 8

end Sys2Proof
end

