-- ==== Sys2Proof/Syntax.lean ====
section
/-! DEFINITION. The instructions: one constructor per row of spec/opcode_table.json (30_encoding R44, R45). A field
named `x` or `y` holds an encoding's don't-care bits (R48): they change no effect, but a fault records the whole
instruction word (R24), so the term keeps them and every word has exactly one term (log entries 11 and 12). -/

namespace Sys2Proof

/-- The instruction set. Second names (RET of JMP; GETC, OUT, PUTS, IN, PUTSP, HALT of TRAP) are rows of the table and
have constructors of their own. -/
inductive Instr where
  /-- ADD DR, SR1, SR2 (R53): `0001 ddd sss 0 xx ttt`. -/
  | addReg (dr sr1 : Reg) (x : BitVec 2) (sr2 : Reg)
  /-- ADD DR, SR1, #imm5 (R54): `0001 ddd sss 1 iiiii`. -/
  | addImm (dr sr1 : Reg) (imm5 : BitVec 5)
  /-- AND DR, SR1, SR2 (R55): `0101 ddd sss 0 xx ttt`. -/
  | andReg (dr sr1 : Reg) (x : BitVec 2) (sr2 : Reg)
  /-- AND DR, SR1, #imm5 (R56): `0101 ddd sss 1 iiiii`. -/
  | andImm (dr sr1 : Reg) (imm5 : BitVec 5)
  /-- NOT DR, SR (R57): `1001 ddd sss xxxxxx`. -/
  | not (dr sr : Reg) (x : BitVec 6)
  /-- BR (R58): `0000 nzp fffffffff`, nzp = instr[11:9] with n at bit 11. -/
  | br (nzp : BitVec 3) (off9 : BitVec 9)
  /-- JMP BaseR, BaseR ≠ R7 (R59): `1100 xxx bbb xxxxxx`. -/
  | jmp (x : BitVec 3) (base : Reg) (y : BitVec 6)
  /-- RET, the JMP through R7 (R59): `1100 xxx 111 xxxxxx`. -/
  | ret (x : BitVec 3) (y : BitVec 6)
  /-- JSR (R60): `0100 1 fffffffffff`. -/
  | jsr (off11 : BitVec 11)
  /-- JSRR BaseR (R61): `0100 0 xx bbb xxxxxx`. -/
  | jsrr (x : BitVec 2) (base : Reg) (y : BitVec 6)
  /-- LD DR, off9 (R63): `0010 ddd fffffffff`. -/
  | ld (dr : Reg) (off9 : BitVec 9)
  /-- LDI DR, off9 (R64): `1010 ddd fffffffff`. -/
  | ldi (dr : Reg) (off9 : BitVec 9)
  /-- LDR DR, BaseR, #off6 (R65): `0110 ddd bbb ffffff`. -/
  | ldr (dr base : Reg) (off6 : BitVec 6)
  /-- LEA DR, off9 (R66): `1110 ddd fffffffff`. -/
  | lea (dr : Reg) (off9 : BitVec 9)
  /-- ST SR, off9 (R67): `0011 sss fffffffff`. -/
  | st (sr : Reg) (off9 : BitVec 9)
  /-- STI SR, off9 (R68): `1011 sss fffffffff`. -/
  | sti (sr : Reg) (off9 : BitVec 9)
  /-- STR SR, BaseR, #off6 (R69): `0111 sss bbb ffffff`. -/
  | str (sr base : Reg) (off6 : BitVec 6)
  /-- TRAP (R70): `1111 xxxx vvvvvvvv`. A decoded word gives this constructor only for a vector outside 0x20 to 0x25;
  the six routines' rows have constructors of their own. -/
  | trap (x : BitVec 4) (vec : BitVec 8)
  /-- GETC = TRAP x20 (R71). -/
  | getc (x : BitVec 4)
  /-- OUT = TRAP x21 (R72). -/
  | out (x : BitVec 4)
  /-- PUTS = TRAP x22 (R73). -/
  | puts (x : BitVec 4)
  /-- IN = TRAP x23 (R74). -/
  | inp (x : BitVec 4)
  /-- PUTSP = TRAP x24 (R75). -/
  | putsp (x : BitVec 4)
  /-- HALT = TRAP x25 (R76). -/
  | halt (x : BitVec 4)
  /-- The reserved opcode 1000 (R49). -/
  | reserved1000 (x : BitVec 12)
  /-- The reserved opcode 1101 (R49). -/
  | reserved1101 (x : BitVec 12)
  deriving DecidableEq, Repr

end Sys2Proof
end

