-- ==== Sys2Proof/WellFormed.lean ====
section
/-! DEFINITION. Which terms are the instruction of some word. Field widths are fixed by their types; two rows of the
table contain rows with a name of their own, and the contained words belong to those (log entry 11). -/

namespace Sys2Proof

/-- The six trap vectors that have a routine (30_encoding R50). -/
def trapVectorSupported (vec : BitVec 8) : Bool :=
  vec == 0x20#8 || vec == 0x21#8 || vec == 0x22#8 || vec == 0x23#8 || vec == 0x24#8 || vec == 0x25#8

/-- A term is well formed when it is the name of its own words: JMP through R7 is RET's (R59), TRAP with a supported
vector is its routine's (R70). -/
def Instr.wellFormed : Instr → Bool
  | .jmp _ base _ => base != 7
  | .trap _ vec => !trapVectorSupported vec
  | .addReg _ _ _ _ => true
  | .addImm _ _ _ => true
  | .andReg _ _ _ _ => true
  | .andImm _ _ _ => true
  | .not _ _ _ => true
  | .br _ _ => true
  | .ret _ _ => true
  | .jsr _ => true
  | .jsrr _ _ _ => true
  | .ld _ _ => true
  | .ldi _ _ => true
  | .ldr _ _ _ => true
  | .lea _ _ => true
  | .st _ _ => true
  | .sti _ _ => true
  | .str _ _ _ => true
  | .getc _ => true
  | .out _ => true
  | .puts _ => true
  | .inp _ => true
  | .putsp _ => true
  | .halt _ => true
  | .reserved1000 _ => true
  | .reserved1101 _ => true

end Sys2Proof
end

