-- ==== Sys2Proof/Decode.lean ====
section
/-! DEFINITION. The decoder, total on every 16-bit word, and the encoder (30_encoding R43 to R50). The opcode map is
exhaustive (R44): no word is without an instruction, and the two reserved opcodes decode to terms that name them. -/

namespace Sys2Proof

/-- The register that a 3-bit field names (R47). -/
def regOf (b : BitVec 3) : Reg := ⟨b.toNat, b.isLt⟩

/-- The 3-bit field that names a register. -/
def regBits (r : Reg) : BitVec 3 := BitVec.ofNat 3 r.val

/-- `w[hi:lo]` of R8, as the `len` bits from bit `lo` on. -/
def field (w : Word) (lo len : Nat) : BitVec len := w.extractLsb' lo len

/-- The opcode, the top four bits (R43). -/
def opcode (w : Word) : BitVec 4 := field w 12 4

/-- The TRAP row and the six rows it contains (R50, R70). -/
def decodeTrap (x : BitVec 4) (vec : BitVec 8) : Instr :=
  if vec = 0x20#8 then .getc x
  else if vec = 0x21#8 then .out x
  else if vec = 0x22#8 then .puts x
  else if vec = 0x23#8 then .inp x
  else if vec = 0x24#8 then .putsp x
  else if vec = 0x25#8 then .halt x
  else .trap x vec

/-- The JMP row and the RET row it contains (R59). -/
def decodeJmp (x : BitVec 3) (base : Reg) (y : BitVec 6) : Instr :=
  if base = 7 then .ret x y else .jmp x base y

/-- The instruction of a word: the opcode map of R44 over the field positions of R45. The last branch is opcode 1111. -/
def decode (w : Word) : Instr :=
  if opcode w = 0x0#4 then .br (field w 9 3) (field w 0 9)
  else if opcode w = 0x1#4 then
    if field w 5 1 = 0#1 then .addReg (regOf (field w 9 3)) (regOf (field w 6 3)) (field w 3 2) (regOf (field w 0 3))
    else .addImm (regOf (field w 9 3)) (regOf (field w 6 3)) (field w 0 5)
  else if opcode w = 0x2#4 then .ld (regOf (field w 9 3)) (field w 0 9)
  else if opcode w = 0x3#4 then .st (regOf (field w 9 3)) (field w 0 9)
  else if opcode w = 0x4#4 then
    if field w 11 1 = 1#1 then .jsr (field w 0 11)
    else .jsrr (field w 9 2) (regOf (field w 6 3)) (field w 0 6)
  else if opcode w = 0x5#4 then
    if field w 5 1 = 0#1 then .andReg (regOf (field w 9 3)) (regOf (field w 6 3)) (field w 3 2) (regOf (field w 0 3))
    else .andImm (regOf (field w 9 3)) (regOf (field w 6 3)) (field w 0 5)
  else if opcode w = 0x6#4 then .ldr (regOf (field w 9 3)) (regOf (field w 6 3)) (field w 0 6)
  else if opcode w = 0x7#4 then .str (regOf (field w 9 3)) (regOf (field w 6 3)) (field w 0 6)
  else if opcode w = 0x8#4 then .reserved1000 (field w 0 12)
  else if opcode w = 0x9#4 then .not (regOf (field w 9 3)) (regOf (field w 6 3)) (field w 0 6)
  else if opcode w = 0xA#4 then .ldi (regOf (field w 9 3)) (field w 0 9)
  else if opcode w = 0xB#4 then .sti (regOf (field w 9 3)) (field w 0 9)
  else if opcode w = 0xC#4 then decodeJmp (field w 9 3) (regOf (field w 6 3)) (field w 0 6)
  else if opcode w = 0xD#4 then .reserved1101 (field w 0 12)
  else if opcode w = 0xE#4 then .lea (regOf (field w 9 3)) (field w 0 9)
  else decodeTrap (field w 8 4) (field w 0 8)

/-- The word of an instruction, each row's bit string of R45, most significant field first. -/
def encode : Instr → Word
  | .addReg dr sr1 x sr2 => 0x1#4 ++ regBits dr ++ regBits sr1 ++ 0#1 ++ x ++ regBits sr2
  | .addImm dr sr1 imm5 => 0x1#4 ++ regBits dr ++ regBits sr1 ++ 1#1 ++ imm5
  | .andReg dr sr1 x sr2 => 0x5#4 ++ regBits dr ++ regBits sr1 ++ 0#1 ++ x ++ regBits sr2
  | .andImm dr sr1 imm5 => 0x5#4 ++ regBits dr ++ regBits sr1 ++ 1#1 ++ imm5
  | .not dr sr x => 0x9#4 ++ regBits dr ++ regBits sr ++ x
  | .br nzp off9 => 0x0#4 ++ nzp ++ off9
  | .jmp x base y => 0xC#4 ++ x ++ regBits base ++ y
  | .ret x y => 0xC#4 ++ x ++ 7#3 ++ y
  | .jsr off11 => 0x4#4 ++ 1#1 ++ off11
  | .jsrr x base y => 0x4#4 ++ 0#1 ++ x ++ regBits base ++ y
  | .ld dr off9 => 0x2#4 ++ regBits dr ++ off9
  | .ldi dr off9 => 0xA#4 ++ regBits dr ++ off9
  | .ldr dr base off6 => 0x6#4 ++ regBits dr ++ regBits base ++ off6
  | .lea dr off9 => 0xE#4 ++ regBits dr ++ off9
  | .st sr off9 => 0x3#4 ++ regBits sr ++ off9
  | .sti sr off9 => 0xB#4 ++ regBits sr ++ off9
  | .str sr base off6 => 0x7#4 ++ regBits sr ++ regBits base ++ off6
  | .trap x vec => 0xF#4 ++ x ++ vec
  | .getc x => 0xF#4 ++ x ++ 0x20#8
  | .out x => 0xF#4 ++ x ++ 0x21#8
  | .puts x => 0xF#4 ++ x ++ 0x22#8
  | .inp x => 0xF#4 ++ x ++ 0x23#8
  | .putsp x => 0xF#4 ++ x ++ 0x24#8
  | .halt x => 0xF#4 ++ x ++ 0x25#8
  | .reserved1000 x => 0x8#4 ++ x
  | .reserved1101 x => 0xD#4 ++ x

/-- The host's reading of a table row: the instruction whose `nbits` given bits are `w`, the bits above them zero. An
instruction is one 16-bit word (R43), so more bits than that are no instruction. -/
def decodeTableWord (nbits w : Nat) : Option Instr :=
  if nbits ≤ 16 then some (decode (BitVec.ofNat 16 (w % 2 ^ nbits))) else none

end Sys2Proof
end

