-- ==== Sys2Proof/Machine/Bits.lean ====
section
/-! DEFINITION. The bit helpers of 00_scope R8 and R10. -/

namespace Sys2Proof.Machine

/-- `sext_16(f, w)`: the `w`-bit field as two's complement, extended to 16 bits (R10, R46). -/
def sext16 {w : Nat} (f : BitVec w) : Word := f.signExtend 16

/-- `zext_16(c)`: a character in bits 7:0, bits 15:8 zero (R10). -/
def zext16 (c : Byte) : Word := c.setWidth 16

/-- `w[7:0]`, the character of a word (R34). -/
def lowByte (w : Word) : Byte := w.extractLsb' 0 8

/-- `w[15:8]`, the second packed character of PUTSP (R75). -/
def highByte (w : Word) : Byte := w.extractLsb' 8 8

end Sys2Proof.Machine
end

