-- ==== Sys2Proof/Config.lean ====
section
/-! DEFINITION. The fixed parameters of the hardware (00_scope R6) and the open ones (R7): an open parameter is a
constant with no body, so nothing can be proved about its value. -/

namespace Sys2Proof.Config

/-- START_PC, the address of the first fetch (R6, R17, R89). -/
def startPc : Word := 0x3000#16

/-- KBSR_ADDR, the keyboard-status cell (R6, R31, R37). -/
def kbsrAddr : Word := 0xFE00#16

/-- KBDR_ADDR, the keyboard-data cell (R6, R32, R37). -/
def kbdrAddr : Word := 0xFE02#16

/-- MEM_WORDS, the number of memory cells (R6, R27). -/
def memWords : Nat := 65536

/-- The value of R0 to R7 at reset. DESIGN CHOICE (log entry 1, unsafe): the spec leaves RESET_GPR open (R7, D5). -/
def resetGpr : Word := 0x0000#16

/-- IN_PROMPT, the prompt of the IN routine: open in the spec (R7, R74, D17). Free value, log entry 9. -/
opaque inPrompt : List Byte

/-- HALT_NOTICE, the shutdown notice of HALT: open in the spec (R7, R76, D18). Free value, log entry 9. -/
opaque haltNotice : List Byte

/-- KBDR_EMPTY, what the n-th read of an empty KBDR answers: any Word, drawn anew at each read (R7, R32, D12).
Free value, log entry 8; `State.draws` supplies n. -/
opaque kbdrEmpty : Nat → Word

/-- The console input from outside, open in the spec (R7, D16, D33): what step `n` of a run may meet. One list of
characters arrives before each of the step's `ConsoleAvailable` queries, what the step does not query stays ahead of
the later steps' input, and the second component is what follows that list within the step: no character, or one
available at all times. Every input, an endless changing one too, is some value of this constant. Free value, log
entry 4; `State.console.feed` supplies `n`. -/
opaque consoleInput : Nat → List (List Byte) × Option Byte

/-- Whether the loader truncates (true) or refuses (false) an image that runs past 0xFFFF (R90, D31, N26).
Free value, log entry 17. -/
opaque overflowTruncates : Bool

end Sys2Proof.Config
end

