-- ==== Sys2Proof/Machine/State.lean ====
section
/-! DEFINITION. The state of the machine as plain data (10_state), the reasons a step can stop, and the reset state
(70_reset_and_hazards R89). -/

namespace Sys2Proof.Machine

/-- The run state (R20). HALTED and FAULTED are terminal. -/
inductive RunState where
  | running
  | halted
  | faulted
  deriving DecidableEq, Repr

/-- The two fatal causes a running core can raise (R79). -/
inductive FaultCause where
  | reservedOpcode
  | unsupportedTrap
  deriving DecidableEq, Repr

/-- The fault record (R24): the cause, the instruction word that faulted, and the address it was fetched from. -/
structure FaultRecord where
  cause : FaultCause
  instr : Word
  pc : Word
  deriving DecidableEq, Repr

/-- The word memory (R27): the cells that hold something other than 0x0000, as pairs of address and word in strictly
rising order of address. Memory is word-addressed and has no bytes (R28, R34; log entry 2). -/
abbrev Memory := List (Nat × Word)

/-- The console as the core can tell it apart (R13, R25, D33): the arrivals already known, and where the open input
from outside goes on (log entry 4). -/
structure Console where
  /-- characters that have arrived and are not consumed, oldest first -/
  pending : List Byte
  /-- the schedule: what arrives before each later `ConsoleAvailable` query, one list a query -/
  arrivals : List (List Byte)
  /-- after the schedule: no character, or one and the same character available at all times -/
  tail : Option Byte
  /-- the next instalment of the open input `Config.consoleInput`, taken at the start of a step; none for a console
  whose schedule is all that ever arrives -/
  feed : Option Nat
  /-- every character written so far, oldest first -/
  output : List Byte
  deriving DecidableEq, Repr

/-- Everything the spec gives the machine (10_state), and the console of R25. -/
structure State where
  /-- R0 to R7 (R16) -/
  gpr : Vector Word 8
  /-- the program counter (R17) -/
  pc : Word
  /-- the condition-flag word: bit 2 N, bit 1 Z, bit 0 P (R18) -/
  cond : Word
  /-- the run state (R20) -/
  run : RunState
  /-- the fault record, none until a fault (R24) -/
  faultRecord : Option FaultRecord
  /-- the word memory (R27) -/
  mem : Memory
  /-- the console (R25) -/
  console : Console
  /-- the model's own: how many free values KBDR_EMPTY have been drawn (R32, D12; log entry 8) -/
  draws : Nat
  deriving DecidableEq, Repr

/-- Why a step has no next state. None of these is a fault of the spec's: those are next states with run = FAULTED. -/
inductive Fault where
  /-- Raised by `step` in HALTED: "the core takes no further step and fetches nothing" (R20). Safe (log entry 7). -/
  | halted
  /-- Raised by `step` in FAULTED, which is terminal too (R20, R78). Safe (log entry 7). -/
  | faulted
  /-- Raised by GETC and IN when no character is pending and the step's schedule brings none: the step holds forever
  (R93, U6).
  It carries the state of the hold; IN's prompt has been written there. Safe (log entry 5). -/
  | inputNeverArrives (held : State)
  /-- Raised by PUTS and PUTSP when no zero word is ever read: the step never ends (R73, R75, U7). Safe (log entry 6). -/
  | stringNeverEnds
  deriving DecidableEq, Repr

/-- Refusals. The only one is the host's word for an instruction without a meaning; no arm of `exec` uses it. Safe. -/
inductive Refusal where
  | notModelled (mnemonic : String)
  deriving DecidableEq, Repr

/-- The state when the first instruction is fetched, before any image is loaded (R89): pc = 0x3000, the Z flag alone,
RUNNING, no fault record, every memory cell zero, nothing pending at the console. The registers are
a DESIGN CHOICE (log entry 1, unsafe), and so are the starts of the two counters of free values, the console's feed and
the draws (log entries 4 and 8): all input still to come is free. -/
def State.reset : State where
  gpr := Vector.replicate 8 Config.resetGpr
  pc := Config.startPc
  cond := 0x0002#16
  run := .running
  faultRecord := none
  mem := []
  console := { pending := [], arrivals := [], tail := none, feed := some 0, output := [] }
  draws := 0

end Sys2Proof.Machine
end

