-- ==== Sys2Proof/Machine/Console.lean ====
section
/-! DEFINITION. The three operations of the console (00_scope R13) over its schedule of arrivals (10_state R25,
D33; log entry 4). -/

namespace Sys2Proof.Machine

/-- The character that the tail has made available, the schedule being over. -/
def Console.standing (c : Console) : List Byte := if c.arrivals.isEmpty then c.tail.toList else []

/-- The start of a step: the next instalment of the open input joins the schedule and brings its own tail. A character
that the old tail had made available stays so (R32: a character once seen is there to be read). -/
def Console.takeFeed (c : Console) : Console :=
  match c.feed with
  | none => c
  | some n =>
    { c with
      pending := c.pending ++ c.standing
      arrivals := c.arrivals ++ (Config.consoleInput n).1
      tail := (Config.consoleInput n).2
      feed := some (n + 1) }

/-- What arrives before this query joins the pending characters. -/
def Console.tick (c : Console) : Console :=
  match c.arrivals with
  | [] => c
  | batch :: rest => { c with pending := c.pending ++ batch, arrivals := rest }

/-- Whether a character is available now: one is pending, or the schedule is over and its tail supplies one. -/
def Console.ready (c : Console) : Bool :=
  !c.pending.isEmpty || (c.arrivals.isEmpty && c.tail.isSome)

/-- `ConsoleAvailable()`: the non-blocking query (R13). It consumes nothing. -/
def Console.available (c : Console) : Bool × Console := (c.tick.ready, c.tick)

/-- The next character of the schedule: that character, the rest of its batch, the batches after it. None if no
character ever arrives. -/
def Console.nextArrival : List (List Byte) → Option Byte → Option (Byte × List Byte × List (List Byte))
  | [], tail => tail.map fun b => (b, [], [])
  | [] :: rest, tail => Console.nextArrival rest tail
  | (b :: batch) :: rest, _ => some (b, batch, rest)

/-- `ConsoleRead()`: the blocking read of one character (R13). It takes the oldest pending character, or holds until
the next one arrives; none means that it holds forever (R93, U6), which the step's schedule says by holding none. -/
def Console.read (c : Console) : Option (Byte × Console) :=
  match c.pending with
  | b :: rest => some (b, { c with pending := rest })
  | [] => (Console.nextArrival c.arrivals c.tail).map fun r => (r.1, { c with pending := r.2.1, arrivals := r.2.2 })

/-- `ConsoleWrite` of each character of a list, in order (R13, R86). -/
def Console.write (c : Console) (bs : List Byte) : Console := { c with output := c.output ++ bs }

/-- How many characters are pending or scheduled. -/
def Console.charsLeft (c : Console) : Nat := c.pending.length + (c.arrivals.map List.length).sum

end Sys2Proof.Machine
end

