-- ==== Sys2Proof/Machine/Memory.lean ====
section
/-! DEFINITION. The word memory: its canonical form, and the plain read and write of one cell (20_memory R27 to R30).
The keyboard cells' read effects are in Ops.lean. -/

namespace Sys2Proof.Machine

/-- What an unlisted cell reads as: memory is zero-initialised (R37, R89). -/
def Memory.unlisted : Word := 0x0000#16

/-- The canonical form: addresses strictly rising and inside the 65536 cells, no entry equal to what an unlisted cell
reads as. -/
abbrev Memory.wf (m : Memory) : Prop :=
  m.Pairwise (fun c d => c.1 < d.1) ∧ ∀ c ∈ m, c.1 < Config.memWords ∧ c.2 ≠ Memory.unlisted

/-- The cell numbered `k`. -/
def Memory.lookup : Memory → Nat → Word
  | [], _ => Memory.unlisted
  | (j, u) :: rest, k => if j = k then u else Memory.lookup rest k

/-- The list with `v` at `k` put before it, or nothing where `v` is what an unlisted cell reads as. -/
def Memory.entry (k : Nat) (v : Word) (rest : Memory) : Memory :=
  if v = Memory.unlisted then rest else (k, v) :: rest

/-- The memory with `v` in the cell numbered `k`; keeps the canonical form. -/
def Memory.insert : Memory → Nat → Word → Memory
  | [], k, v => Memory.entry k v []
  | (j, u) :: rest, k, v =>
    if k < j then Memory.entry k v ((j, u) :: rest)
    else if k = j then Memory.entry k v rest
    else (j, u) :: Memory.insert rest k v

/-- `mem[a]` (R29). -/
def Memory.read (m : Memory) (a : Word) : Word := m.lookup a.toNat

/-- `mem[a] <- v` (R30). -/
def Memory.write (m : Memory) (a v : Word) : Memory := m.insert a.toNat v

end Sys2Proof.Machine
end

