-- ==== Sys2Proof/Machine/Ops.lean ====
section
/-! DEFINITION. The named operations over registers, memory, console and run state: register access (00_scope R11),
`MemRead` and `MemWrite` (R12, 20_memory R29 to R33), `ConsoleWrite` (R13), `halt` and `raise` (R14). -/

namespace Sys2Proof.Machine

/-- `x[r]` (R11). No register is hard-wired (R16). -/
def State.getReg (s : State) (r : Reg) : Word := s.gpr[r]

/-- `x[r] <- v` (R11). -/
def State.setReg (s : State) (r : Reg) (v : Word) : State := { s with gpr := s.gpr.set r v }

/-- `pc <- target` (R11). -/
def State.setPc (s : State) (target : Word) : State := { s with pc := target }

/-- `cond <- c` (R11, R19). -/
def State.setCond (s : State) (c : Word) : State := { s with cond := c }

/-- The console after an operation of its own. -/
def State.setConsole (s : State) (c : Console) : State := { s with console := c }

/-- The next free value KBDR_EMPTY is drawn (R32, D12; log entry 8). -/
def State.draw (s : State) : State := { s with draws := s.draws + 1 }

/-- `MemWrite(a, 1, v)` (R12, R30): the cell takes the value, at 0xFE00 and 0xFE02 as well, and nothing else happens. -/
def State.memWrite (s : State) (a v : Word) : State := { s with mem := s.mem.write a v }

/-- `MemRead(0xFE00, 1)` (R31): bit 15 says whether a character is available; the backing cell takes the value (log
entry 16). -/
def State.readKbsr (s : State) : Word × State :=
  let q := s.console.available
  let v := if q.1 then 0x8000#16 else 0x0000#16
  (v, (s.setConsole q.2).memWrite Config.kbsrAddr v)

/-- `MemRead(0xFE02, 1)` (R32): the pending character, consumed, or a fresh free value when none is pending. It never
holds. -/
def State.readKbdr (s : State) : Word × State :=
  let q := s.console.available
  match if q.1 then q.2.read else none with
  | some (c, con) => (zext16 c, (s.setConsole con).memWrite Config.kbdrAddr (zext16 c))
  | none =>
    let v := Config.kbdrEmpty s.draws
    (v, ((s.setConsole q.2).draw).memWrite Config.kbdrAddr v)

/-- `MemRead(a, 1)` (R12, R29, R31, R32): the one read path, for the fetch, the loads, the pointers and the strings
(R33). -/
def State.memRead (s : State) (a : Word) : Word × State :=
  if a = Config.kbsrAddr then s.readKbsr
  else if a = Config.kbdrAddr then s.readKbdr
  else (s.mem.read a, s)

/-- `ConsoleWrite` of each character of a list, in order (R13). -/
def State.writeChars (s : State) (bs : List Byte) : State := s.setConsole (s.console.write bs)

/-- `halt` (R14): the run state becomes HALTED (R20). -/
def State.enterHalted (s : State) : State := { s with run := .halted }

/-- The numeric code of a cause (R79). -/
def FaultCause.code : FaultCause → Nat
  | .reservedOpcode => 1
  | .unsupportedTrap => 2

/-- `raise Fault(cause, instr)` (R14, R78), the machine's one way of taking an exception: the record is written, with
the address the instruction was fetched from, and the run state becomes FAULTED. `pc` keeps the incremented value and
nothing else changes. There is no handler and no return from an exception (R82, R83). -/
def State.raiseFault (s : State) (cause : FaultCause) (instr : Word) : State :=
  { s with faultRecord := some { cause := cause, instr := instr, pc := s.pc - 1 }, run := .faulted }

end Sys2Proof.Machine
end

