-- ==== Sys2Proof/Machine/Flags.lean ====
section
/-! DEFINITION. The condition flags (10_state R18, R19) and the test of BR (41_control R58). -/

namespace Sys2Proof.Machine

/-- The flag word of a value: Z for zero, N for bit 15 set, else P (R19). -/
def flagsOf (v : Word) : Word :=
  if v = 0x0000#16 then 0x0002#16
  else if v.getLsbD 15 then 0x0004#16
  else 0x0001#16

/-- `update_flags(v)` (R19). -/
def State.updateFlags (s : State) (v : Word) : State := s.setCond (flagsOf v)

/-- The end of every flag-setting instruction: the destination takes the value and the flags follow it (R19). -/
def State.writeResult (s : State) (dr : Reg) (v : Word) : State := (s.setReg dr v).updateFlags v

/-- The N flag, bit 2 of `cond` (R18). -/
def State.flagN (s : State) : Bool := s.cond.getLsbD 2

/-- The Z flag, bit 1 of `cond` (R18). -/
def State.flagZ (s : State) : Bool := s.cond.getLsbD 1

/-- The P flag, bit 0 of `cond` (R18). -/
def State.flagP (s : State) : Bool := s.cond.getLsbD 0

/-- BR's condition: `(instr[11:9] & cond[2:0]) != 0` (R58). -/
def State.branchTaken (s : State) (nzp : BitVec 3) : Bool := (nzp &&& s.cond.extractLsb' 0 3) != 0#3

end Sys2Proof.Machine
end

