-- ==== Sys2Proof/Machine/Operands.lean ====
section
/-! DEFINITION. The operand forms and the addressing modes (30_encoding R46, R47; the table at the head of
42_load_store). `pc` is the address of the instruction plus one (10_state R17); every sum wraps (20_memory R28). -/

namespace Sys2Proof.Machine

/-- `pc + sext(PCoffset9)` (R46): BR, LD, LDI, LEA, ST, STI. -/
def State.pcRel9 (s : State) (off9 : BitVec 9) : Word := s.pc + sext16 off9

/-- `pc + sext(PCoffset11)` (R46): JSR. -/
def State.pcRel11 (s : State) (off11 : BitVec 11) : Word := s.pc + sext16 off11

/-- `x[BaseR] + sext(offset6)` (R46): LDR, STR. -/
def State.baseOff6 (s : State) (base : Reg) (off6 : BitVec 6) : Word := s.getReg base + sext16 off6

/-- The indirect mode of LDI and STI: the pointer, read through the read path, and the state after that read (R33). -/
def State.indirect9 (s : State) (off9 : BitVec 9) : Word × State := s.memRead (s.pcRel9 off9)

/-- The immediate second operand of ADD and AND (R46, R47). -/
def immOperand (imm5 : BitVec 5) : Word := sext16 imm5

end Sys2Proof.Machine
end

