-- ==== Sys2Proof/Machine/Operate.lean ====
section
/-! DEFINITION. ADD, AND and NOT (40_operate R53 to R57). -/

namespace Sys2Proof.Machine

/-- The answer of a step. -/
abbrev Answer := Host.Outcome State Fault Refusal

/-- ADD (register), R53. -/
def execAddReg (dr sr1 sr2 : Reg) (s : State) : Answer :=
  .next (s.writeResult dr (s.getReg sr1 + s.getReg sr2))

/-- ADD (immediate), R54. -/
def execAddImm (dr sr1 : Reg) (imm5 : BitVec 5) (s : State) : Answer :=
  .next (s.writeResult dr (s.getReg sr1 + immOperand imm5))

/-- AND (register), R55. -/
def execAndReg (dr sr1 sr2 : Reg) (s : State) : Answer :=
  .next (s.writeResult dr (s.getReg sr1 &&& s.getReg sr2))

/-- AND (immediate), R56. -/
def execAndImm (dr sr1 : Reg) (imm5 : BitVec 5) (s : State) : Answer :=
  .next (s.writeResult dr (s.getReg sr1 &&& immOperand imm5))

/-- NOT, R57. -/
def execNot (dr sr : Reg) (s : State) : Answer :=
  .next (s.writeResult dr (~~~ s.getReg sr))

end Sys2Proof.Machine
end

