-- ==== Sys2Proof/Machine/Control.lean ====
section
/-! DEFINITION. BR, JMP, RET, JSR and JSRR (41_control R58 to R61). None of them writes the flags. -/

namespace Sys2Proof.Machine

/-- `pc <- x[base]`, the jump through a register (R59). -/
def State.jumpThrough (s : State) (base : Reg) : State := s.setPc (s.getReg base)

/-- The call: R7 takes the return address, which `pc` already is, and `pc` the target (R60, R61). The target is
computed by the caller from the state before the link is written (C4, D7; log entry 13). -/
def State.call (s : State) (target : Word) : State := (s.setReg 7 s.pc).setPc target

/-- BR, R58. -/
def execBr (nzp : BitVec 3) (off9 : BitVec 9) (s : State) : Answer :=
  .next (if s.branchTaken nzp then s.setPc (s.pcRel9 off9) else s)

/-- JMP, R59. -/
def execJmp (base : Reg) (s : State) : Answer := .next (s.jumpThrough base)

/-- RET, the JMP through R7, R59. -/
def execRet (s : State) : Answer := .next (s.jumpThrough 7)

/-- JSR, R60. -/
def execJsr (off11 : BitVec 11) (s : State) : Answer := .next (s.call (s.pcRel11 off11))

/-- JSRR, R61. -/
def execJsrr (base : Reg) (s : State) : Answer := .next (s.call (s.getReg base))

end Sys2Proof.Machine
end

