-- ==== Sys2Proof/Machine/LoadStore.lean ====
section
/-! DEFINITION. LD, LDI, LDR, LEA, ST, STI and STR (42_load_store R63 to R69). Reads go through `memRead`, writes
through `memWrite`; the loads and LEA set the flags, the stores do not. -/

namespace Sys2Proof.Machine

/-- The load of `mem[ea]` into a register, with the flags (R63 to R65). -/
def State.loadInto (s : State) (dr : Reg) (ea : Word) : State :=
  let r := s.memRead ea
  r.2.writeResult dr r.1

/-- LD, R63. -/
def execLd (dr : Reg) (off9 : BitVec 9) (s : State) : Answer :=
  .next (s.loadInto dr (s.pcRel9 off9))

/-- LDI, R64: the pointer is read first, then the data. -/
def execLdi (dr : Reg) (off9 : BitVec 9) (s : State) : Answer :=
  let p := s.indirect9 off9
  .next (p.2.loadInto dr p.1)

/-- LDR, R65. -/
def execLdr (dr base : Reg) (off6 : BitVec 6) (s : State) : Answer :=
  .next (s.loadInto dr (s.baseOff6 base off6))

/-- LEA, R66: the address itself; no memory is read. -/
def execLea (dr : Reg) (off9 : BitVec 9) (s : State) : Answer :=
  .next (s.writeResult dr (s.pcRel9 off9))

/-- ST, R67. -/
def execSt (sr : Reg) (off9 : BitVec 9) (s : State) : Answer :=
  .next (s.memWrite (s.pcRel9 off9) (s.getReg sr))

/-- STI, R68: the pointer is read through the read path, then the register is stored at it (C5). -/
def execSti (sr : Reg) (off9 : BitVec 9) (s : State) : Answer :=
  let p := s.indirect9 off9
  .next (p.2.memWrite p.1 (s.getReg sr))

/-- STR, R69. -/
def execStr (sr base : Reg) (off6 : BitVec 6) (s : State) : Answer :=
  .next (s.memWrite (s.baseOff6 base off6) (s.getReg sr))

end Sys2Proof.Machine
end

