-- ==== Sys2Proof/Machine/Trap.lean ====
section
/-! DEFINITION. TRAP, the six routines of the trap dispatcher (43_trap R70 to R77) and the reserved opcodes
(30_encoding R49). No routine writes `cond`, R7 or `pc`. -/

namespace Sys2Proof.Machine

/-- GETC (R71): hold for a character, R0 takes it zero-extended. -/
def State.getcRoutine (s : State) : Answer :=
  match s.console.read with
  | some (c, con) => .next ((s.setConsole con).setReg 0 (zext16 c))
  | none => .fault (.inputNeverArrives s)

/-- OUT (R72): the low byte of R0. -/
def State.outRoutine (s : State) : Answer := .next (s.writeChars [lowByte (s.getReg 0)])

/-- IN (R74): the prompt, the hold for a character, its echo, then R0. -/
def State.inRoutine (s : State) : Answer :=
  let prompted := s.writeChars Config.inPrompt
  match prompted.console.read with
  | some (c, con) => .next (((prompted.setConsole con).writeChars [c]).setReg 0 (zext16 c))
  | none => .fault (.inputNeverArrives prompted)

/-- The characters PUTS writes for a non-zero word (R73, D19). -/
def putsChars (w : Word) : List Byte := [lowByte w]

/-- The characters PUTSP writes for a non-zero word: the low byte always, the high byte if it is not zero (R75, D20). -/
def putspChars (w : Word) : List Byte :=
  lowByte w :: if highByte w = 0x00#8 then [] else [highByte w]

/-- The loop of PUTS and PUTSP (R73, R75): read a word through the read path, stop at a zero word, else write its
characters and go on at the next address, which wraps (D21). None when `fuel` words held no zero word. -/
def State.stringLoop (chars : Word → List Byte) : Nat → Word → State → Option State
  | 0, _, _ => none
  | fuel + 1, a, s =>
    let r := s.memRead a
    if r.1 = 0x0000#16 then some r.2
    else State.stringLoop chars fuel (a + 1) (r.2.writeChars (chars r.1))

/-- Enough words to tell a loop that ends from one that never does: the loop stops at 0xFE00 unless a character is
available, and each turn round the address space then consumes one, so once all characters are used up one more turn
meets every cell in its last value (log entry 6). -/
def State.stringFuel (s : State) : Nat := (s.console.charsLeft + 2) * Config.memWords

/-- PUTS or PUTSP, from the address in R0 (R73, R75). R0 keeps it. -/
def State.stringRoutine (s : State) (chars : Word → List Byte) : Answer :=
  match State.stringLoop chars s.stringFuel (s.getReg 0) s with
  | some t => .next t
  | none => .fault .stringNeverEnds

/-- HALT (R76): the notice, then HALTED. -/
def State.haltRoutine (s : State) : Answer := .next (s.writeChars Config.haltNotice).enterHalted

/-- GETC, R71. -/
def execGetc (s : State) : Answer := s.getcRoutine

/-- OUT, R72. -/
def execOut (s : State) : Answer := s.outRoutine

/-- PUTS, R73. -/
def execPuts (s : State) : Answer := s.stringRoutine putsChars

/-- IN, R74. -/
def execIn (s : State) : Answer := s.inRoutine

/-- PUTSP, R75. -/
def execPutsp (s : State) : Answer := s.stringRoutine putspChars

/-- HALT, R76. -/
def execHalt (s : State) : Answer := s.haltRoutine

/-- TRAP, R70: the dispatch by vector, and Fault(UNSUPPORTED_TRAP) for every other vector (R77). -/
def execTrap (x : BitVec 4) (vec : BitVec 8) (s : State) : Answer :=
  if vec = 0x20#8 then s.getcRoutine
  else if vec = 0x21#8 then s.outRoutine
  else if vec = 0x22#8 then s.stringRoutine putsChars
  else if vec = 0x23#8 then s.inRoutine
  else if vec = 0x24#8 then s.stringRoutine putspChars
  else if vec = 0x25#8 then s.haltRoutine
  else .next (s.raiseFault .unsupportedTrap (encode (.trap x vec)))

/-- The reserved opcode 1000, R49: Fault(RESERVED_OPCODE). -/
def execReserved1000 (x : BitVec 12) (s : State) : Answer :=
  .next (s.raiseFault .reservedOpcode (encode (.reserved1000 x)))

/-- The reserved opcode 1101, R49: Fault(RESERVED_OPCODE). -/
def execReserved1101 (x : BitVec 12) (s : State) : Answer :=
  .next (s.raiseFault .reservedOpcode (encode (.reserved1101 x)))

end Sys2Proof.Machine
end

