-- ==== Sys2Proof/Machine/Fetch.lean ====
section
/-! DEFINITION. The console input of a step, the fetch, and the placing of a word where the fetch reads (10_state R17, R22; 20_memory R33). -/

namespace Sys2Proof.Machine

/-- What the step may meet at the console is drawn from the open input (R7, D33; log entry 4). -/
def State.takeFeed (s : State) : State := s.setConsole s.console.takeFeed

/-- `instr <- MemRead(pc, 1); pc <- pc + 1` (R22): the word, and the state the instruction executes in. -/
def State.fetch (s : State) : Word × State :=
  let r := s.memRead s.pc
  (r.1, r.2.setPc (s.pc + 1))

/-- The cell at `pc` takes the `nbits` low bits of `w`, the bits above them zero. It is what the loader does for a
program (R90; log entry 3). At the two keyboard cells the fetch reads the console, not a cell (log entry 14). -/
def State.placeWord (s : State) (nbits w : Nat) : State :=
  s.memWrite s.pc (BitVec.ofNat 16 (w % 2 ^ nbits))

end Sys2Proof.Machine
end

