-- ==== Sys2Proof/Machine/Step.lean ====
section
/-! DEFINITION. One step of the execution loop (10_state R20, R22). -/

namespace Sys2Proof.Machine

/-- The step: RUNNING fetches, increments `pc`, decodes and executes (R22), over the console input of this step (log
entry 4); HALTED and FAULTED take no step (R20). -/
def step (s : State) : Host.Outcome State Fault Refusal :=
  match s.run with
  | .running => exec (decode s.takeFeed.fetch.1) s.takeFeed.fetch.2
  | .halted => .fault .halted
  | .faulted => .fault .faulted

/-- `s` with an instruction's word where the next fetch reads it. -/
def State.withFetchWord (s : State) (nbits w : Nat) : State := s.placeWord nbits w

end Sys2Proof.Machine
end

