-- ==== Sys2Proof/Machine/Boot.lean ====
section
/-! DEFINITION. The loader's contract (70_reset_and_hazards R89 to R92): the memory a run starts with, from the image
files' bytes. The loader itself is outside the core (00_scope R4); only its result is modelled. -/

namespace Sys2Proof.Machine

/-- An image: its load origin, and the words stored from there on (R90). -/
structure Image where
  origin : Word
  words : List Word
  deriving DecidableEq, Repr

/-- A stream of big-endian words (R34, R90); none where a byte is left over. -/
def wordsOfBytes : List Byte → Option (List Word)
  | [] => some []
  | [_] => none
  | hi :: lo :: rest => (wordsOfBytes rest).map fun ws => (hi ++ lo) :: ws

/-- The image of a file: the first word is the origin (R90). None where the file is no such stream, a load failure
(R91). -/
def parseImage (bytes : List Byte) : Option Image :=
  match wordsOfBytes bytes with
  | some (origin :: words) => some { origin := origin, words := words }
  | _ => none

/-- Whether the image ends inside the address space (R90). -/
def Image.fits (im : Image) : Bool := im.origin.toNat + im.words.length ≤ Config.memWords

/-- `mem[k + j] <- ws[j]` for each word (R90). -/
def Memory.storeWords : Memory → Nat → List Word → Memory
  | m, _, [] => m
  | m, k, w :: ws => Memory.storeWords (m.insert k w) (k + 1) ws

/-- The memory after one image. An image that runs past 0xFFFF is truncated or refused, which of the two the spec leaves
to the loader; it never wraps (R90, N26; log entry 17). -/
def Memory.loadImage (m : Memory) (im : Image) : Option Memory :=
  if im.fits || Config.overflowTruncates then
    some (m.storeWords im.origin.toNat (im.words.take (Config.memWords - im.origin.toNat)))
  else none

/-- The images in order; a later one overwrites an earlier one (R90). -/
def Memory.loadImages : Memory → List Image → Option Memory
  | m, [] => some m
  | m, im :: rest =>
    match m.loadImage im with
    | some m' => Memory.loadImages m' rest
    | none => none

/-- The images of the files, none if one of them is no image (R91). -/
def parseImages : List (List Byte) → Option (List Image)
  | [] => some []
  | file :: rest =>
    match parseImage file, parseImages rest with
    | some im, some ims => some (im :: ims)
    | _, _ => none

/-- The launch (R89 to R92): the reset state over INIT_MEM. None where a file cannot be parsed or is refused, and where
no file is given: no instruction executes (R91). -/
def boot (files : List (List Byte)) : Option State :=
  match files, parseImages files with
  | _ :: _, some images => (Memory.loadImages [] images).map fun m => { State.reset with mem := m }
  | _, _ => none

end Sys2Proof.Machine
end

