-- ==== Sys2Proof/Safety.lean ====
section
/-! DEFINITION. What counts as a sound state and a normal end of a run, in the terms the claims use. -/

namespace Sys2Proof.Safety

open Sys2Proof.Machine

/-- Exactly one of N, Z and P, and bits 15:3 zero (10_state R18). -/
def CondOneHot (c : Word) : Prop := c = 0x0001#16 ∨ c = 0x0002#16 ∨ c = 0x0004#16

/-- The cause that an instruction word raises, if any (60_exceptions R79, R81). -/
def causeOf (w : Word) : Option FaultCause :=
  if opcode w = 0x8#4 ∨ opcode w = 0xD#4 then some .reservedOpcode
  else if opcode w = 0xF#4 ∧ trapVectorSupported (field w 0 8) = false then some .unsupportedTrap
  else none

/-- The fault record tells the truth: there is one exactly in FAULTED (10_state R24), it names the cause its word
raises (R79), and `pc` is the faulting address plus one (R78). -/
def FaultRecordSound (s : State) : Prop :=
  (s.run = .faulted ↔ s.faultRecord ≠ none) ∧
  ∀ r, s.faultRecord = some r → causeOf r.instr = some r.cause ∧ s.pc = r.pc + 1

/-- The invariant of the machine: memory in canonical form, one flag set, the fault record sound. -/
def Inv (s : State) : Prop := s.mem.wf ∧ CondOneHot s.cond ∧ FaultRecordSound s

/-- A run ends normally exactly in HALTED (70_reset_and_hazards R96); FAULTED is never a normal end. -/
def NormalEnd (s : State) : Prop := s.run = .halted ∧ s.faultRecord = none

end Sys2Proof.Safety
end

