-- ==== Sys2Proof/Certificates/Slice0/Obligations.lean ====
section
/-! DEFINITION. The statements for the provers, and the words they are written in (namespace Sys2Proof.Spec), which
say the spec's rules without the model's own helpers where that is possible. -/

namespace Sys2Proof.Spec

open Sys2Proof.Machine

/-- An address other than the two keyboard cells (20_memory R29). -/
def Plain (a : Word) : Prop := a ≠ 0xFE00#16 ∧ a ≠ 0xFE02#16

/-- The flag word that `update_flags(v)` leaves: Z for zero, N for a value from 0x8000 on, else P (R19). -/
def flagWord (v : Word) : Word :=
  if v = 0x0000#16 then 0x0002#16 else if 0x8000 ≤ v.toNat then 0x0004#16 else 0x0001#16

/-- A field's two's-complement value as a Word (R10). -/
def sext {w : Nat} (f : BitVec w) : Word := BitVec.ofInt 16 f.toInt

/-- A character as a Word, zero-extended (R10). -/
def zext (c : Byte) : Word := BitVec.ofNat 16 c.toNat

/-- Bits 7:0 of a word. -/
def low (w : Word) : Byte := BitVec.ofNat 8 w.toNat

/-- Bits 15:8 of a word. -/
def high (w : Word) : Byte := BitVec.ofNat 8 (w.toNat / 256)

def RegsKept (s t : State) : Prop := ∀ r, t.getReg r = s.getReg r

def RegsKeptBut (d : Reg) (s t : State) : Prop := ∀ r, r ≠ d → t.getReg r = s.getReg r

def CellsKept (s t : State) : Prop := ∀ a, t.mem.read a = s.mem.read a

def CellsKeptBut (a : Word) (s t : State) : Prop := ∀ b, b ≠ a → t.mem.read b = s.mem.read b

def ControlKept (s t : State) : Prop := t.run = s.run ∧ t.faultRecord = s.faultRecord

def ConsoleKept (s t : State) : Prop := t.console = s.console ∧ t.draws = s.draws

/-- `x[dr] <- v; update_flags(v)`, and nothing else. -/
def ResultWritten (s : State) (dr : Reg) (v : Word) (t : State) : Prop :=
  t.getReg dr = v ∧ RegsKeptBut dr s t ∧ t.cond = flagWord v ∧ t.pc = s.pc ∧
    ControlKept s t ∧ CellsKept s t ∧ ConsoleKept s t

/-- `MemWrite(a, 1, v)`, and nothing else. The cell reads as written where memory is in its canonical form, an
invariant of every step. -/
def StoreDone (s : State) (a v : Word) (t : State) : Prop :=
  (s.mem.wf → t.mem.read a = v) ∧ CellsKeptBut a s t ∧ RegsKept s t ∧ t.cond = s.cond ∧ t.pc = s.pc ∧
    ControlKept s t ∧ ConsoleKept s t

/-- What a `MemRead` of `a` may leave: nothing at a plain address; at a keyboard cell only that backing cell and the
console's input side may differ (R29, R31, R32). -/
def ReadDone (s : State) (a : Word) (t : State) : Prop :=
  (Plain a → t = s) ∧ CellsKeptBut a s t ∧ RegsKept s t ∧ t.cond = s.cond ∧ t.pc = s.pc ∧ ControlKept s t ∧
    t.console.output = s.console.output

/-- The instruction moves `pc` to `target` and changes nothing else. -/
def Jumped (s : State) (target : Word) (t : State) : Prop :=
  t.pc = target ∧ RegsKept s t ∧ t.cond = s.cond ∧ ControlKept s t ∧ CellsKept s t ∧ ConsoleKept s t

/-- The call: R7 holds the return address, `pc` the target, and nothing else changes. -/
def Called (s : State) (target : Word) (t : State) : Prop :=
  t.pc = target ∧ t.getReg 7 = s.pc ∧ RegsKeptBut 7 s t ∧ t.cond = s.cond ∧ ControlKept s t ∧ CellsKept s t ∧
    ConsoleKept s t

/-- Only the console's output grew, by `bs`. -/
def Wrote (s : State) (bs : List Byte) (t : State) : Prop :=
  t.console = { s.console with output := s.console.output ++ bs } ∧ RegsKept s t ∧ t.cond = s.cond ∧ t.pc = s.pc ∧
    ControlKept s t ∧ CellsKept s t ∧ t.draws = s.draws

/-- `raise Fault(cause, w)` was taken: the record and the run state, and nothing else (R78). -/
def FaultTaken (s : State) (cause : FaultCause) (w : Word) (t : State) : Prop :=
  t.run = .faulted ∧ t.faultRecord = some { cause := cause, instr := w, pc := s.pc - 1 } ∧ t.pc = s.pc ∧
    RegsKept s t ∧ t.cond = s.cond ∧ CellsKept s t ∧ ConsoleKept s t

/-- The state in which a step begins: what the step may meet at the console is drawn from the open input, and a
character that the old tail made available stays (R7, R25, D33; log entry 4). -/
def supplied (s : State) : State :=
  match s.console.feed with
  | none => s
  | some n =>
    { s with console := { s.console with
        pending := s.console.pending ++ (if s.console.arrivals = [] then s.console.tail.toList else [])
        arrivals := s.console.arrivals ++ (Config.consoleInput n).1
        tail := (Config.consoleInput n).2
        feed := some (n + 1) } }

/-- The word a step fetches, and the state after the fetch's read (R22, R33). -/
def fetched (s : State) : Word × State := (supplied s).memRead s.pc

/-- The characters pending after what arrives before a query (log entry 4). -/
def arrived (c : Console) : List Byte := c.pending ++ c.arrivals.head?.getD []

/-- The console after a `ConsoleAvailable` query. -/
def queried (c : Console) : Console := { c with pending := arrived c, arrivals := c.arrivals.drop 1 }

/-- The answer of a `ConsoleAvailable` query. -/
def CharAvailable (c : Console) : Prop := arrived c ≠ [] ∨ (c.arrivals.drop 1 = [] ∧ c.tail ≠ none)

/-- What can lie between two console reads of a program that consumes no character meanwhile: any number of step starts,
each of which draws the step's console input (log entry 4), of further reads of KBSR, and of changes that leave the
console's input side alone. -/
inductive NothingConsumed : State → State → Prop
  | refl (s : State) : NothingConsumed s s
  | draw {s t : State} (h : NothingConsumed s t) : NothingConsumed s (supplied t)
  | poll {s t : State} (h : NothingConsumed s t) : NothingConsumed s (t.memRead 0xFE00#16).2
  | other {s t u : State} (h : NothingConsumed s t)
      (hc : u.console = { t.console with output := u.console.output }) (hd : u.draws = t.draws) : NothingConsumed s u

/-- `ConsoleRead` takes the character `b` and leaves `c'`: the oldest pending one, else the first of the schedule, else
the schedule's tail (R13, log entry 4). -/
def Reads (c : Console) (b : Byte) (c' : Console) : Prop :=
  (∃ rest, c.pending = b :: rest ∧ c' = { c with pending := rest }) ∨
  (c.pending = [] ∧ ∃ n bs rest, c.arrivals = List.replicate n [] ++ (b :: bs) :: rest ∧
    c' = { c with pending := bs, arrivals := rest }) ∨
  (c.pending = [] ∧ (∀ batch ∈ c.arrivals, batch = []) ∧ c.tail = some b ∧ c' = { c with arrivals := [] })

/-- The characters of PUTSP for a non-zero word (R75). -/
def packed (w : Word) : List Byte := if high w = 0#8 then [low w] else [low w, high w]

/-- The loop of PUTS and PUTSP as the spec's pseudocode writes it, with no bound on its turns (R73, R75). -/
inductive StringRun (chars : Word → List Byte) : Word → State → State → Prop
  | stop {a : Word} {s : State} (h : (s.memRead a).1 = 0x0000#16) : StringRun chars a s (s.memRead a).2
  | more {a : Word} {s t : State} (h : (s.memRead a).1 ≠ 0x0000#16)
      (rest : StringRun chars (a + 1) ((s.memRead a).2.writeChars (chars (s.memRead a).1)) t) : StringRun chars a s t

/-- A string of non-zero words in plain cells from `a` on, ended by a zero word in a plain cell. -/
def StringAt (s : State) (a : Word) (ws : List Word) : Prop :=
  (∀ i, i < ws.length → Plain (a + BitVec.ofNat 16 i) ∧ ws[i]? = some (s.mem.read (a + BitVec.ofNat 16 i)) ∧
    s.mem.read (a + BitVec.ofNat 16 i) ≠ 0x0000#16) ∧
  Plain (a + BitVec.ofNat 16 ws.length) ∧ s.mem.read (a + BitVec.ofNat 16 ws.length) = 0x0000#16

/-- The general registers an instruction may write (R21). -/
def writes : Instr → List Reg
  | .addReg dr _ _ _ | .addImm dr _ _ | .andReg dr _ _ _ | .andImm dr _ _ | .not dr _ _ => [dr]
  | .ld dr _ | .ldi dr _ | .ldr dr _ _ | .lea dr _ => [dr]
  | .jsr _ | .jsrr _ _ _ => [7]
  | .getc _ | .inp _ => [0]
  | .trap _ vec => if vec = 0x20#8 ∨ vec = 0x23#8 then [0] else []
  | _ => []

/-- The destination of a flag-setting instruction; none for the others (R19). -/
def flagSource : Instr → Option Reg
  | .addReg dr _ _ _ | .addImm dr _ _ | .andReg dr _ _ _ | .andImm dr _ _ | .not dr _ _ => some dr
  | .ld dr _ | .ldi dr _ | .ldr dr _ _ | .lea dr _ => some dr
  | _ => none

/-- BR, JMP, RET, JSR and JSRR (R17). -/
def isControl : Instr → Bool
  | .br _ _ | .jmp _ _ _ | .ret _ _ | .jsr _ | .jsrr _ _ _ => true
  | _ => false

/-- The address and the value a store writes, with the model's own address forms; none for the others (R67 to R69). -/
def storeOf (i : Instr) (s : State) : Option (Word × Word) :=
  match i with
  | .st sr off9 => some (s.pcRel9 off9, s.getReg sr)
  | .sti sr off9 => some ((s.indirect9 off9).1, s.getReg sr)
  | .str sr base off6 => some (s.baseOff6 base off6, s.getReg sr)
  | _ => none

/-- The instructions that stop the core for good: HALT (R76). -/
def isHalt : Instr → Bool
  | .halt _ => true
  | .trap _ vec => vec == 0x25#8
  | _ => false

/-- The instructions that raise a fault (R79). -/
def isIllegal : Instr → Bool
  | .reserved1000 _ | .reserved1101 _ => true
  | .trap _ vec => !trapVectorSupported vec
  | _ => false

/-- The instructions whose step can be without an end (R71, R73, R74, R75). -/
def canWait : Instr → Bool
  | .getc _ | .inp _ | .puts _ | .putsp _ => true
  | .trap _ vec => vec == 0x20#8 || vec == 0x22#8 || vec == 0x23#8 || vec == 0x24#8
  | _ => false

/-- The don't-care bits of a word, by its opcode and mode bit (R48). -/
def dontCare (w : Word) : Word :=
  if opcode w = 0x1#4 ∨ opcode w = 0x5#4 then (if w.getLsbD 5 then 0x0000#16 else 0x0018#16)
  else if opcode w = 0x9#4 then 0x003F#16
  else if opcode w = 0xC#4 then 0x0E3F#16
  else if opcode w = 0x4#4 then (if w.getLsbD 11 then 0x0000#16 else 0x063F#16)
  else if opcode w = 0xF#4 then 0x0F00#16
  else 0x0000#16

/-- Two states that differ at most in the backing cells of 0xFE00 and 0xFE02. -/
def SameButKeyboardCells (s u : State) : Prop :=
  RegsKept s u ∧ u.pc = s.pc ∧ u.cond = s.cond ∧ ControlKept s u ∧ ConsoleKept s u ∧
    ∀ a, Plain a → u.mem.read a = s.mem.read a

end Sys2Proof.Spec

open Sys2Proof Sys2Proof.Machine Sys2Proof.Safety Sys2Proof.Spec

-- ## Encoding

/-- The words the spec writes out in its examples are the instructions it says they are (the encoding is decision D2,
log entry 10). -/
def Obligations.SpecExampleWordsDecode : Prop :=
  decode 0x1401#16 = .addReg 2 0 0#2 1 ∧ decode 0x107D#16 = .addImm 0 1 0x1D#5 ∧
  decode 0x5642#16 = .andReg 3 1 0#2 2 ∧ decode 0x5020#16 = .andImm 0 0 0#5 ∧ decode 0x997F#16 = .not 4 5 0x3F#6 ∧
  decode 0x0402#16 = .br 0b010#3 2#9 ∧ decode 0xC080#16 = .jmp 0#3 2 0#6 ∧ decode 0xC1C0#16 = .ret 0#3 0#6 ∧
  decode 0x4810#16 = .jsr 0x10#11 ∧ decode 0x40C0#16 = .jsrr 0#2 3 0#6 ∧ decode 0x2205#16 = .ld 1 5#9 ∧
  decode 0xA410#16 = .ldi 2 0x10#9 ∧ decode 0x673E#16 = .ldr 3 4 0x3E#6 ∧ decode 0xEBFD#16 = .lea 5 0x1FD#9 ∧
  decode 0x3C07#16 = .st 6 7#9 ∧ decode 0xB001#16 = .sti 0 1#9 ∧ decode 0x729F#16 = .str 1 2 31#6 ∧
  decode 0xF120#16 = .getc 1#4 ∧ decode 0xF021#16 = .out 0#4 ∧ decode 0xF022#16 = .puts 0#4 ∧
  decode 0xF023#16 = .inp 0#4 ∧ decode 0xF024#16 = .putsp 0#4 ∧ decode 0xFF25#16 = .halt 0xF#4 ∧
  decode 0xF026#16 = .trap 0#4 0x26#8 ∧ decode 0x8ABC#16 = .reserved1000 0xABC#12 ∧
  decode 0xD123#16 = .reserved1101 0x123#12

/-- Decoding an encoded well-formed instruction gives it back (30_encoding R45 with D2, log entry 10). -/
def Obligations.DecodeOfEncode : Prop := ∀ i : Instr, i.wellFormed = true → decode (encode i) = i

/-- Every word is the word of one well-formed instruction, with no bit dropped (R44 "exhaustive", with D2). -/
def Obligations.EncodeOfDecode : Prop := ∀ w : Word, (decode w).wellFormed = true ∧ encode (decode w) = w

/-- Don't-care bits change nothing an instruction does (R48, decision D6). The fault of an unsupported vector is left
out: its record holds the whole word. -/
def Obligations.DontCareBitsIgnored : Prop :=
  ∀ (w w' : Word) (s : State), w &&& ~~~dontCare w = w' &&& ~~~dontCare w →
    (opcode w = 0xF#4 → trapVectorSupported (field w 0 8) = true) → exec (decode w') s = exec (decode w) s

/-- The low bits of a field as two's complement, as R10's pseudocode computes it, and a character zero-extended. -/
def Obligations.SignAndZeroExtension : Prop :=
  (∀ (w : Nat) (f : BitVec w), 0 < w → w ≤ 16 →
    sext16 f = if f.getLsbD (w - 1) = true then f.setWidth 16 ||| (0xFFFF#16 <<< w) else f.setWidth 16) ∧
  ∀ c : Byte, (zext16 c).toNat = c.toNat

-- ## The execution loop

/-- One step of a running core: the word at `pc`, `pc` plus one, the decoded instruction (R22). That the fetch goes
through the read path, with its effects at 0xFE00 and 0xFE02, is decision D13 (R33, log entry 19); the console input of
the step is log entry 4. -/
def Obligations.StepFetchesAdvancesAndExecutes : Prop :=
  ∀ s : State, s.run = .running →
    step s = exec (decode (fetched s).1) ((fetched s).2.setPc (s.pc + 1))

/-- Where the cell at a plain `pc` holds the word of a well-formed instruction, the step executes that instruction with
`pc` advanced by one and nothing else changed but the console input of the step (log entry 4). -/
def Obligations.StepRunsTheEncodedInstruction : Prop :=
  ∀ (s : State) (i : Instr), s.run = .running → Plain s.pc → i.wellFormed = true → s.mem.read s.pc = encode i →
    step s = exec i { supplied s with pc := s.pc + 1 }

/-- HALTED and FAULTED take no step (R20; that the model answers a stop of its own name is log entry 7). -/
def Obligations.StoppedCoreTakesNoStep : Prop :=
  ∀ s : State, (s.run = .halted → step s = .fault .halted) ∧ (s.run = .faulted → step s = .fault .faulted) ∧
    (s.run ≠ .running → ∀ t, step s ≠ .next t)

/-- A running core completes every step, but for GETC and IN while no character ever arrives and PUTS and PUTSP over
a string without an end; nothing is refused (R38, R79, R93; log entries 5 and 6). -/
def Obligations.RunningStepsCompleteOrWait : Prop :=
  ∀ s : State, s.run = .running →
    (∃ t, step s = .next t) ∨
    (canWait (decode (fetched s).1) = true ∧
      ((∃ held, step s = .fault (.inputNeverArrives held)) ∨ step s = .fault .stringNeverEnds))

/-- A word stored by ST, STI or STR into a plain cell is what a later fetch of that cell executes, as long as nothing
else writes it (R41). -/
def Obligations.StoredWordIsFetched : Prop :=
  ∀ (i : Instr) (s : State) (ea v : Word), storeOf i s = some (ea, v) → Plain ea → s.mem.wf →
    ∃ t, exec i s = .next t ∧
      ∀ u : State, u.mem.read ea = t.mem.read ea → u.run = .running → u.pc = ea →
        step u = exec (decode v) ((supplied u).setPc (ea + 1))

-- ## Flags, registers, pc

/-- `update_flags(v)` sets exactly one flag, by the value, and touches nothing else (R19). -/
def Obligations.UpdateFlagsSetsExactlyOne : Prop :=
  ∀ (s : State) (v : Word), (s.updateFlags v).cond = flagWord v ∧ CondOneHot (s.updateFlags v).cond ∧
    (s.updateFlags v).flagZ = (v == 0#16) ∧ (s.updateFlags v).flagN = v.getLsbD 15 ∧
    (s.updateFlags v).flagP = (v != 0#16 && !v.getLsbD 15) ∧
    RegsKept s (s.updateFlags v) ∧ (s.updateFlags v).pc = s.pc ∧ ControlKept s (s.updateFlags v) ∧
    CellsKept s (s.updateFlags v) ∧ ConsoleKept s (s.updateFlags v)

/-- `cond` follows the destination of ADD, AND, NOT, LD, LDI, LDR and LEA and is never changed by another instruction
(R19, C2, D29). -/
def Obligations.FlagsFollowTheDestination : Prop :=
  ∀ (i : Instr) (s t : State), exec i s = .next t →
    match flagSource i with
    | some dr => t.cond = flagWord (t.getReg dr)
    | none => t.cond = s.cond

/-- An instruction writes no general register but those R21 names for it; no TRAP but GETC and IN writes one. -/
def Obligations.OnlyNamedRegistersWritten : Prop :=
  ∀ (i : Instr) (s t : State) (r : Reg), exec i s = .next t → r ∉ writes i → t.getReg r = s.getReg r

/-- Only BR, JMP, RET, JSR and JSRR move `pc` away from the incremented value (R17). -/
def Obligations.OnlyControlTransfersMovePc : Prop :=
  ∀ (i : Instr) (s t : State), exec i s = .next t → isControl i = false → t.pc = s.pc

-- ## ADD, AND, NOT
-- In the statements below and in those of the following sections, a clause that begins `decode (…)` gives the operand
-- fields their places in the word: the encoding of R44 and R45, decision D2 (log entry 10).

/-- ADD (register), R53. -/
def Obligations.AddRegisterResult : Prop :=
  ∀ (dr sr1 : Reg) (x : BitVec 2) (sr2 : Reg) (s : State),
    decode (0b0001#4 ++ regBits dr ++ regBits sr1 ++ 0#1 ++ x ++ regBits sr2) = .addReg dr sr1 x sr2 ∧
    ∃ t, exec (.addReg dr sr1 x sr2) s = .next t ∧
      ResultWritten s dr (BitVec.ofNat 16 ((s.getReg sr1).toNat + (s.getReg sr2).toNat)) t

/-- ADD (immediate), R54. -/
def Obligations.AddImmediateResult : Prop :=
  ∀ (dr sr1 : Reg) (imm5 : BitVec 5) (s : State),
    decode (0b0001#4 ++ regBits dr ++ regBits sr1 ++ 1#1 ++ imm5) = .addImm dr sr1 imm5 ∧
    ∃ t, exec (.addImm dr sr1 imm5) s = .next t ∧
      ResultWritten s dr (BitVec.ofInt 16 ((s.getReg sr1).toNat + imm5.toInt)) t

/-- AND (register), R55. -/
def Obligations.AndRegisterResult : Prop :=
  ∀ (dr sr1 : Reg) (x : BitVec 2) (sr2 : Reg) (s : State),
    decode (0b0101#4 ++ regBits dr ++ regBits sr1 ++ 0#1 ++ x ++ regBits sr2) = .andReg dr sr1 x sr2 ∧
    ∃ t, exec (.andReg dr sr1 x sr2) s = .next t ∧ ResultWritten s dr (s.getReg sr1 &&& s.getReg sr2) t

/-- AND (immediate), R56; bits 15:5 of the result follow bit 4 of the immediate. -/
def Obligations.AndImmediateResult : Prop :=
  ∀ (dr sr1 : Reg) (imm5 : BitVec 5) (s : State),
    decode (0b0101#4 ++ regBits dr ++ regBits sr1 ++ 1#1 ++ imm5) = .andImm dr sr1 imm5 ∧
    ∃ t, exec (.andImm dr sr1 imm5) s = .next t ∧ ResultWritten s dr (s.getReg sr1 &&& sext imm5) t ∧
      ∀ n, 5 ≤ n → n < 16 → (t.getReg dr).getLsbD n = ((s.getReg sr1).getLsbD n && imm5.getLsbD 4)

/-- NOT, R57. -/
def Obligations.NotResult : Prop :=
  ∀ (dr sr : Reg) (x : BitVec 6) (s : State),
    decode (0b1001#4 ++ regBits dr ++ regBits sr ++ x) = .not dr sr x ∧
    ∃ t, exec (.not dr sr x) s = .next t ∧ ResultWritten s dr (BitVec.ofNat 16 (0xFFFF - (s.getReg sr).toNat)) t

-- ## Control transfer

/-- BR: taken exactly when a flag and its condition bit are both set; n is instr[11], z instr[10], p instr[9] (R58). -/
def Obligations.BranchTakenOnCommonFlag : Prop :=
  ∀ (nzp : BitVec 3) (off9 : BitVec 9) (s : State), decode (0b0000#4 ++ nzp ++ off9) = .br nzp off9 ∧
    ∃ t, exec (.br nzp off9) s = .next t ∧
      Jumped s (if (nzp.getLsbD 2 && s.flagN || nzp.getLsbD 1 && s.flagZ || nzp.getLsbD 0 && s.flagP) = true
        then s.pc + sext off9 else s.pc) t

/-- JMP: `pc <- x[BaseR]`, any register, and RET, its words with BaseR = R7 (R59). -/
def Obligations.JumpAndReturnThroughRegister : Prop :=
  ∀ (x : BitVec 3) (base : Reg) (y : BitVec 6) (s : State),
    decode (0b1100#4 ++ x ++ regBits base ++ y) = (if base = 7 then .ret x y else .jmp x base y) ∧
    (∃ t, exec (.jmp x base y) s = .next t ∧ Jumped s (s.getReg base) t) ∧
    (∃ t, exec (.ret x y) s = .next t ∧ Jumped s (s.getReg 7) t)

/-- JSR: R7 takes the return address, then `pc` moves by the offset (R60). -/
def Obligations.JsrLinksAndJumps : Prop :=
  ∀ (off11 : BitVec 11) (s : State), decode (0b0100#4 ++ 1#1 ++ off11) = .jsr off11 ∧
    ∃ t, exec (.jsr off11) s = .next t ∧ Called s (s.pc + sext off11) t

/-- JSRR: the target is the base register's value before the link, for R7 too (R61; the order is decision D7, log
entry 13). -/
def Obligations.JsrrReadsBaseBeforeLink : Prop :=
  ∀ (x : BitVec 2) (base : Reg) (y : BitVec 6) (s : State),
    decode (0b0100#4 ++ 0#1 ++ x ++ regBits base ++ y) = .jsrr x base y ∧
    ∃ t, exec (.jsrr x base y) s = .next t ∧ Called s (s.getReg base) t

/-- JSR or JSRR, then later a RET with R7 as the call left it, returns to the address after the call (R62). -/
def Obligations.ReturnAfterCall : Prop :=
  ∀ (i : Instr) (s t u : State) (x : BitVec 3) (y : BitVec 6),
    ((∃ off11, i = .jsr off11) ∨ ∃ x' base y', i = .jsrr x' base y') → exec i s = .next t →
    u.getReg 7 = t.getReg 7 → ∃ v, exec (.ret x y) u = .next v ∧ v.pc = s.pc

-- ## The read path and the write path

/-- A read of a plain address returns its cell and has no effect at all (R29). -/
def Obligations.PlainReadReturnsTheCell : Prop :=
  ∀ (s : State) (a : Word), Plain a → s.memRead a = (s.mem.read a, s)

/-- A read of 0xFE00: bit 15 says whether a character is available, nothing is consumed (R31; bits 14:0 are decision
D11, the schedule log entry 4). -/
def Obligations.KbsrReadReportsAvailability : Prop :=
  ∀ s : State, ∃ v t, s.memRead 0xFE00#16 = (v, t) ∧
    (CharAvailable s.console → v = 0x8000#16) ∧ (¬CharAvailable s.console → v = 0x0000#16) ∧
    t.console = queried s.console ∧ t.draws = s.draws ∧ (s.mem.wf → t.mem.read 0xFE00#16 = v) ∧
    ReadDone s 0xFE00#16 t

/-- A read of 0xFE02: the oldest available character, zero-extended and consumed; with none, a fresh free value and
nothing consumed (R32, D12; log entries 4 and 8). -/
def Obligations.KbdrReadConsumesOrDraws : Prop :=
  ∀ s : State, ∃ v t, s.memRead 0xFE02#16 = (v, t) ∧
    (∀ c rest, arrived s.console = c :: rest → v = zext c ∧ t.draws = s.draws ∧
      t.console = { queried s.console with pending := rest }) ∧
    (arrived s.console = [] → ∀ c, s.console.arrivals.drop 1 = [] → s.console.tail = some c →
      v = zext c ∧ t.draws = s.draws ∧ t.console = queried s.console) ∧
    (¬CharAvailable s.console → v = Config.kbdrEmpty s.draws ∧ t.draws = s.draws + 1 ∧
      t.console = queried s.console) ∧
    (s.mem.wf → t.mem.read 0xFE02#16 = v) ∧ ReadDone s 0xFE02#16 t

/-- A program that sees bit 15 of KBSR set and reads KBDR in a later step, with nothing consumed in between, gets the
character that was the oldest available at the poll, and no free value is drawn (R32; the steps' console input and the
schedule are log entry 4). -/
def Obligations.PollThenReadGetsTheCharacter : Prop :=
  ∀ s u : State, (s.memRead 0xFE00#16).1.getLsbD 15 = true → NothingConsumed (s.memRead 0xFE00#16).2 u →
    ∃ c : Byte, (u.memRead 0xFE02#16).1 = zext c ∧ (u.memRead 0xFE02#16).2.draws = s.draws ∧
      ((arrived s.console).head? = some c ∨ (arrived s.console = [] ∧ s.console.tail = some c))

/-- `MemWrite` sets one cell, a keyboard cell as well, and has no other effect (R30, D14). -/
def Obligations.WriteSetsOneCell : Prop :=
  ∀ (s : State) (a v : Word), StoreDone s a v (s.memWrite a v)

/-- What the backing cells of 0xFE00 and 0xFE02 hold is never observable: states that differ only there step to states
that differ only there (R30, R31, R32). The memories are in canonical form, an invariant of every step. -/
def Obligations.KeyboardCellsNeverObservable : Prop :=
  ∀ s u t : State, s.mem.wf → u.mem.wf → SameButKeyboardCells s u → step s = .next t →
    ∃ v, step u = .next v ∧ SameButKeyboardCells t v

/-- Only ST, STI and STR change a plain cell, and each only the cell it stores to (R30). -/
def Obligations.OnlyStoresChangePlainCells : Prop :=
  ∀ (i : Instr) (s t : State) (a : Word), exec i s = .next t → Plain a →
    (∀ v, storeOf i s ≠ some (a, v)) → t.mem.read a = s.mem.read a

/-- Two memories in canonical form that read alike are the same list (the model's representation, log entry 2). -/
def Obligations.CanonicalMemoriesAreEqual : Prop :=
  ∀ m n : Memory, m.wf → n.wf → (∀ a, m.read a = n.read a) → m = n

-- ## Loads and stores

/-- LD, R63. -/
def Obligations.LoadPcRelative : Prop :=
  ∀ (dr : Reg) (off9 : BitVec 9) (s : State), decode (0b0010#4 ++ regBits dr ++ off9) = .ld dr off9 ∧
    ∃ u t v, s.memRead (s.pc + sext off9) = (v, u) ∧ exec (.ld dr off9) s = .next t ∧
      ReadDone s (s.pc + sext off9) u ∧ ResultWritten u dr v t

/-- LDI, R64: the pointer first, then the data, both through the read path. -/
def Obligations.LoadIndirect : Prop :=
  ∀ (dr : Reg) (off9 : BitVec 9) (s : State), decode (0b1010#4 ++ regBits dr ++ off9) = .ldi dr off9 ∧
    ∃ p u v u' t, s.memRead (s.pc + sext off9) = (p, u) ∧ u.memRead p = (v, u') ∧ exec (.ldi dr off9) s = .next t ∧
      ReadDone s (s.pc + sext off9) u ∧ ReadDone u p u' ∧ ResultWritten u' dr v t

/-- LDR, R65. -/
def Obligations.LoadBaseOffset : Prop :=
  ∀ (dr base : Reg) (off6 : BitVec 6) (s : State),
    decode (0b0110#4 ++ regBits dr ++ regBits base ++ off6) = .ldr dr base off6 ∧
    ∃ u t v, s.memRead (s.getReg base + sext off6) = (v, u) ∧ exec (.ldr dr base off6) s = .next t ∧
      ReadDone s (s.getReg base + sext off6) u ∧ ResultWritten u dr v t

/-- LEA, R66: the address itself; no memory is read, so the console is untouched. -/
def Obligations.LoadEffectiveAddress : Prop :=
  ∀ (dr : Reg) (off9 : BitVec 9) (s : State), decode (0b1110#4 ++ regBits dr ++ off9) = .lea dr off9 ∧
    ∃ t, exec (.lea dr off9) s = .next t ∧ ResultWritten s dr (s.pc + sext off9) t

/-- ST, R67. -/
def Obligations.StorePcRelative : Prop :=
  ∀ (sr : Reg) (off9 : BitVec 9) (s : State), decode (0b0011#4 ++ regBits sr ++ off9) = .st sr off9 ∧
    ∃ t, exec (.st sr off9) s = .next t ∧ StoreDone s (s.pc + sext off9) (s.getReg sr) t

/-- STI, R68: a pointer read through the read path, then the store. -/
def Obligations.StoreIndirect : Prop :=
  ∀ (sr : Reg) (off9 : BitVec 9) (s : State), decode (0b1011#4 ++ regBits sr ++ off9) = .sti sr off9 ∧
    ∃ p u t, s.memRead (s.pc + sext off9) = (p, u) ∧ exec (.sti sr off9) s = .next t ∧
      ReadDone s (s.pc + sext off9) u ∧ StoreDone u p (s.getReg sr) t

/-- STR, R69. -/
def Obligations.StoreBaseOffset : Prop :=
  ∀ (sr base : Reg) (off6 : BitVec 6) (s : State),
    decode (0b0111#4 ++ regBits sr ++ regBits base ++ off6) = .str sr base off6 ∧
    ∃ t, exec (.str sr base off6) s = .next t ∧ StoreDone s (s.getReg base + sext off6) (s.getReg sr) t

-- ## TRAP

/-- TRAP dispatches by its vector to the six routines (R70); the routines' rows are second names of it. -/
def Obligations.TrapDispatchesByVector : Prop :=
  ∀ (x : BitVec 4) (s : State),
    exec (.trap x 0x20#8) s = exec (.getc x) s ∧ exec (.trap x 0x21#8) s = exec (.out x) s ∧
    exec (.trap x 0x22#8) s = exec (.puts x) s ∧ exec (.trap x 0x23#8) s = exec (.inp x) s ∧
    exec (.trap x 0x24#8) s = exec (.putsp x) s ∧ exec (.trap x 0x25#8) s = exec (.halt x) s ∧
    ∃ t, exec (.trap x 0x21#8) s = .next t ∧ Wrote s [low (s.getReg 0)] t

/-- GETC: R0 takes the next character, zero-extended; no echo, flags unchanged (R71; `Reads` is log entry 4). -/
def Obligations.GetcReadsOneCharacter : Prop :=
  ∀ (x : BitVec 4) (s : State) (b : Byte) (c' : Console), Reads s.console b c' →
    ∃ t, exec (.getc x) s = .next t ∧ t.getReg 0 = zext b ∧ RegsKeptBut 0 s t ∧ t.console = c' ∧
      t.console.output = s.console.output ∧ t.cond = s.cond ∧ t.pc = s.pc ∧ ControlKept s t ∧ CellsKept s t ∧
      t.draws = s.draws

/-- IN: the prompt, the character's echo, R0; flags unchanged (R74; the prompt's text is free, log entry 9). -/
def Obligations.InPromptsReadsAndEchoes : Prop :=
  ∀ (x : BitVec 4) (s : State) (b : Byte) (c' : Console), Reads s.console b c' →
    ∃ t, exec (.inp x) s = .next t ∧ t.getReg 0 = zext b ∧ RegsKeptBut 0 s t ∧
      t.console = { c' with output := s.console.output ++ Config.inPrompt ++ [b] } ∧ t.cond = s.cond ∧ t.pc = s.pc ∧
      ControlKept s t ∧ CellsKept s t ∧ t.draws = s.draws

/-- GETC and IN hold forever exactly where no character is pending and none ever arrives, which the schedule the step
has drawn says by holding none (log entry 4); IN has then written its prompt (R93, D16; that the hold is a stop with its
state is log entry 5). -/
def Obligations.GetcAndInHoldWithoutInput : Prop :=
  ∀ (x : BitVec 4) (s : State),
    ((¬∃ b c', Reads s.console b c') ↔
      s.console.pending = [] ∧ (∀ batch ∈ s.console.arrivals, batch = []) ∧ s.console.tail = none) ∧
    ((¬∃ b c', Reads s.console b c') ↔ exec (.getc x) s = .fault (.inputNeverArrives s)) ∧
    ((¬∃ b c', Reads s.console b c') ↔ ∃ held, exec (.inp x) s = .fault (.inputNeverArrives held) ∧
      Wrote s Config.inPrompt held)

/-- OUT: the character in the low byte of R0, and nothing else (R72). -/
def Obligations.OutWritesLowByteOfR0 : Prop :=
  ∀ (x : BitVec 4) (s : State), decode (0b1111#4 ++ x ++ 0x21#8) = .out x ∧
    ∃ t, exec (.out x) s = .next t ∧ Wrote s [low (s.getReg 0)] t

/-- PUTS over a string in plain cells writes the low byte of each word up to the zero word, whatever the high bytes
are, and may run past 0xFFFF; R0 keeps its value (R73, D19, D21). -/
def Obligations.PutsWritesTheString : Prop :=
  ∀ (x : BitVec 4) (s : State) (ws : List Word), StringAt s (s.getReg 0) ws →
    ∃ t, exec (.puts x) s = .next t ∧ Wrote s (ws.map low) t

/-- PUTSP over a string in plain cells writes the low byte of each word and then its high byte if that is not zero
(R75, D20, D21). -/
def Obligations.PutspWritesThePackedString : Prop :=
  ∀ (x : BitVec 4) (s : State) (ws : List Word), StringAt s (s.getReg 0) ws →
    ∃ t, exec (.putsp x) s = .next t ∧ Wrote s (ws.flatMap packed) t

/-- PUTS and PUTSP end in `t` exactly where the spec's unbounded loop does, over every memory and the keyboard cells
too, and never end exactly where it does not (R73, R75; log entry 6). -/
def Obligations.StringRoutinesRefineTheLoop : Prop :=
  ∀ (x : BitVec 4) (s : State),
    (∀ t, exec (.puts x) s = .next t ↔ StringRun (fun w => [low w]) (s.getReg 0) s t) ∧
    (exec (.puts x) s = .fault .stringNeverEnds ↔ ¬∃ t, StringRun (fun w => [low w]) (s.getReg 0) s t) ∧
    (∀ t, exec (.putsp x) s = .next t ↔ StringRun packed (s.getReg 0) s t) ∧
    (exec (.putsp x) s = .fault .stringNeverEnds ↔ ¬∃ t, StringRun packed (s.getReg 0) s t)

/-- HALT: the notice is written and the core is HALTED; nothing else changes (R76; the notice is free, log entry 9). -/
def Obligations.HaltWritesNoticeAndStops : Prop :=
  ∀ (x : BitVec 4) (s : State), decode (0b1111#4 ++ x ++ 0x25#8) = .halt x ∧
    ∃ t, exec (.halt x) s = .next t ∧ t.run = .halted ∧ t.faultRecord = s.faultRecord ∧
      t.console = { s.console with output := s.console.output ++ Config.haltNotice } ∧
      RegsKept s t ∧ t.cond = s.cond ∧ t.pc = s.pc ∧ CellsKept s t ∧ t.draws = s.draws

-- ## Faults

/-- TRAP with an unsupported vector takes Fault(UNSUPPORTED_TRAP), code 2, before any console operation or register
write (R77; the record and FAULTED are decisions D9 and D10, log entry 15). -/
def Obligations.UnsupportedTrapFaults : Prop :=
  ∀ (x : BitVec 4) (vec : BitVec 8) (s : State), trapVectorSupported vec = false →
    decode (0b1111#4 ++ x ++ vec) = .trap x vec ∧ FaultCause.unsupportedTrap.code = 2 ∧
    ∃ t, exec (.trap x vec) s = .next t ∧ FaultTaken s .unsupportedTrap (0b1111#4 ++ x ++ vec) t

/-- The reserved opcodes take Fault(RESERVED_OPCODE), code 1, whatever their other bits are (R49; D2, D9 and D10, log
entries 10 and 15). -/
def Obligations.ReservedOpcodesFault : Prop :=
  ∀ (x : BitVec 12) (s : State),
    decode (0b1000#4 ++ x) = .reserved1000 x ∧ decode (0b1101#4 ++ x) = .reserved1101 x ∧
    FaultCause.reservedOpcode.code = 1 ∧
    (∃ t, exec (.reserved1000 x) s = .next t ∧ FaultTaken s .reservedOpcode (0b1000#4 ++ x) t) ∧
    (∃ t, exec (.reserved1101 x) s = .next t ∧ FaultTaken s .reservedOpcode (0b1101#4 ++ x) t)

/-- The step on a word that raises a cause records that word and the address it was fetched from, leaves `pc` one past
it, and changes nothing else the fetch had not (R78, R79; D9, D10). -/
def Obligations.IllegalWordStepsToFaulted : Prop :=
  ∀ (s : State) (cause : FaultCause), s.run = .running → causeOf (fetched s).1 = some cause →
    ∃ t, step s = .next t ∧ t.run = .faulted ∧ t.pc = s.pc + 1 ∧
      t.faultRecord = some { cause := cause, instr := (fetched s).1, pc := s.pc } ∧
      RegsKept s t ∧ t.cond = s.cond ∧ CellsKept (fetched s).2 t ∧ ConsoleKept (fetched s).2 t

/-- From RUNNING only HALT leads to HALTED, and only the illegal words lead to FAULTED (R20, R79; D9). -/
def Obligations.OnlyHaltHaltsAndOnlyIllegalFaults : Prop :=
  ∀ (i : Instr) (s t : State), exec i s = .next t → s.run = .running →
    (t.run = .halted ↔ isHalt i = true) ∧ (t.run = .faulted ↔ isIllegal i = true)

/-- From a sound running state a step reaches the normal end of a run exactly by HALT; a fault never is one (R96; D9). -/
def Obligations.NormalEndExactlyByHalt : Prop :=
  ∀ s t : State, Inv s → step s = .next t →
    (NormalEnd t ↔ isHalt (decode (fetched s).1) = true) ∧ (t.run = .faulted → ¬NormalEnd t)

/-- Output is only ever appended to (R25, R86, D33), and only by the trap routines. -/
def Obligations.OutputIsAppendOnly : Prop :=
  ∀ s t : State, step s = .next t → ∃ bs, t.console.output = s.console.output ++ bs ∧
    (opcode (fetched s).1 ≠ 0xF#4 → bs = [])

-- ## Reset, boot, invariant

/-- The reset values the spec gives (R89); `cond` is decision D4. -/
def Obligations.ResetStateAsSpecified : Prop :=
  State.reset.run = .running ∧ State.reset.pc = 0x3000#16 ∧ State.reset.cond = 0x0002#16 ∧
    State.reset.faultRecord = none ∧ (∀ a, State.reset.mem.read a = 0x0000#16) ∧ State.reset.console.pending = []

/-- The invariant holds at reset: exactly one flag set (R89 with decision D4, C6; the flags' places D3, log entry 18),
memory in its canonical form (the model's, log entry 2), and no fault record, in RUNNING (R24, D9). -/
def Obligations.ResetMeetsInvariant : Prop := Inv State.reset

/-- Every step keeps the invariant: memory canonical, exactly one flag set (R18), and a fault record exactly in FAULTED
(R24) that names the cause its word raises and the address before `pc` (R78, R79). -/
def Obligations.StepKeepsInvariant : Prop := ∀ s t : State, Inv s → step s = .next t → Inv t

/-- An image inside the address space overwrites exactly the cells from its origin on, and images load in order, so a
later one wins (R90). -/
def Obligations.ImagesLoadInOrder : Prop :=
  (∀ (m : Memory) (im : Image), m.wf → im.fits = true →
    ∃ m', m.loadImage im = some m' ∧ m'.wf ∧
      ∀ a : Word, m'.read a =
        if im.origin.toNat ≤ a.toNat then (im.words[a.toNat - im.origin.toNat]?).getD (m.read a) else m.read a) ∧
  ∀ (m : Memory) (ims : List Image) (im : Image),
    m.loadImages (ims ++ [im]) = (m.loadImages ims).bind fun m' => m'.loadImage im

/-- A launched core is the reset state over the loaded memory and meets the invariant (R89, R90). -/
def Obligations.LaunchedCoreIsReset : Prop :=
  ∀ (files : List (List Byte)) (s : State), boot files = some s → s = { State.reset with mem := s.mem } ∧ Inv s

/-- With no file, or a file that is no stream of whole words with an origin, nothing runs (R91, log entry 17). -/
def Obligations.LoadFailureLaunchesNothing : Prop :=
  boot [] = none ∧
  ∀ (files : List (List Byte)) (f : List Byte), f ∈ files → (f = [] ∨ f.length % 2 = 1) → boot files = none
end

