-- ==== Sys2Proof/Laws/Console.lean ====
section
/-! SUPPORT. The console operations: what each leaves alone. -/

namespace Sys2Proof.Machine

@[simp] theorem Console.write_output (c : Console) (bs : List Byte) : (c.write bs).output = c.output ++ bs := rfl
@[simp] theorem Console.write_pending (c : Console) (bs : List Byte) : (c.write bs).pending = c.pending := rfl
@[simp] theorem Console.write_arrivals (c : Console) (bs : List Byte) : (c.write bs).arrivals = c.arrivals := rfl
@[simp] theorem Console.write_tail (c : Console) (bs : List Byte) : (c.write bs).tail = c.tail := rfl

@[simp] theorem Console.write_feed (c : Console) (bs : List Byte) : (c.write bs).feed = c.feed := rfl

@[simp] theorem Console.takeFeed_output (c : Console) : c.takeFeed.output = c.output := by
  unfold Console.takeFeed; split <;> rfl

/-- A console without a feed stays as it is. -/
theorem Console.takeFeed_none {c : Console} (h : c.feed = none) : c.takeFeed = c := by
  simp [Console.takeFeed, h]

/-- What the start of a step makes of a console with a feed. -/
theorem Console.takeFeed_some {c : Console} {n : Nat} (h : c.feed = some n) :
    c.takeFeed = { c with
      pending := c.pending ++ c.standing
      arrivals := c.arrivals ++ (Config.consoleInput n).1
      tail := (Config.consoleInput n).2
      feed := some (n + 1) } := by
  simp [Console.takeFeed, h]

@[simp] theorem Console.tick_feed (c : Console) : c.tick.feed = c.feed := by
  unfold Console.tick; split <;> rfl

@[simp] theorem Console.tick_output (c : Console) : c.tick.output = c.output := by
  unfold Console.tick; split <;> rfl

@[simp] theorem Console.tick_tail (c : Console) : c.tick.tail = c.tail := by
  unfold Console.tick; split <;> rfl

@[simp] theorem Console.available_snd (c : Console) : c.available.2 = c.tick := rfl
@[simp] theorem Console.available_fst (c : Console) : c.available.1 = c.tick.ready := rfl

/-- A query consumes no character. -/
theorem Console.tick_charsLeft (c : Console) : c.tick.charsLeft = c.charsLeft := by
  unfold Console.tick
  split
  · rfl
  · next h => simp [Console.charsLeft, h]; omega

/-- `ConsoleRead` changes neither the output, nor the tail of the schedule, nor the feed. -/
theorem Console.read_output {c c' : Console} {b : Byte} (h : c.read = some (b, c')) :
    c'.output = c.output ∧ c'.tail = c.tail ∧ c'.feed = c.feed := by
  unfold Console.read at h
  split at h
  · cases h; exact ⟨rfl, rfl, rfl⟩
  · simp only [Option.map_eq_some_iff, Prod.mk.injEq] at h
    obtain ⟨_, _, _, rfl⟩ := h
    exact ⟨rfl, rfl, rfl⟩

@[simp] theorem Console.write_charsLeft (c : Console) (bs : List Byte) : (c.write bs).charsLeft = c.charsLeft := rfl

theorem Console.write_write (c : Console) (bs cs : List Byte) : (c.write bs).write cs = c.write (bs ++ cs) := by
  simp [Console.write]

theorem Console.nextArrival_length {arrivals : List (List Byte)} {tail : Option Byte} {b : Byte} {bs : List Byte}
    {rest : List (List Byte)} (h : Console.nextArrival arrivals tail = some (b, bs, rest)) :
    bs.length + (rest.map List.length).sum ≤ (arrivals.map List.length).sum := by
  induction arrivals with
  | nil =>
    simp only [Console.nextArrival, Option.map_eq_some_iff, Prod.mk.injEq] at h
    obtain ⟨_, _, _, rfl, rfl⟩ := h
    simp
  | cons batch batches ih =>
    cases batch with
    | nil => simpa using ih h
    | cons c cs => cases h; simp

/-- `ConsoleRead` does not add to the characters left. -/
theorem Console.read_charsLeft {c c' : Console} {b : Byte} (h : c.read = some (b, c')) : c'.charsLeft ≤ c.charsLeft := by
  unfold Console.read at h
  split at h
  · next hp => cases h; simp [Console.charsLeft, hp]
  · next hp =>
    simp only [Option.map_eq_some_iff, Prod.mk.injEq] at h
    obtain ⟨⟨_, bs, rest⟩, ha, _, rfl⟩ := h
    simpa [Console.charsLeft, hp] using Console.nextArrival_length ha

/-- `ConsoleRead` with a character pending takes one. -/
theorem Console.read_pending_charsLeft {c c' : Console} {b : Byte} (hp : c.pending ≠ []) (h : c.read = some (b, c')) :
    c'.charsLeft + 1 = c.charsLeft := by
  unfold Console.read at h
  split at h
  · next hc => cases h; simp [Console.charsLeft, hc]; omega
  · next hc => exact absurd hc hp

/-- Where a character is available, `ConsoleRead` returns at once. -/
theorem Console.read_of_ready {c : Console} (h : c.ready = true) : ∃ b c', c.read = some (b, c') := by
  unfold Console.read
  split
  · exact ⟨_, _, rfl⟩
  · next hp =>
    simp [Console.ready, hp] at h
    obtain ⟨h1, h2⟩ := h
    obtain ⟨b, hb⟩ := Option.isSome_iff_exists.mp h2
    simp [h1, hb, Console.nextArrival]

/-- `b` is the next character and is available now: it is the oldest pending one, or the tail supplies it. -/
def Console.Offers (b : Byte) (c : Console) : Prop :=
  c.pending.head? = some b ∨ (c.pending = [] ∧ c.arrivals = [] ∧ c.tail = some b)

/-- A query leaves the character that is on offer. -/
theorem Console.Offers.tick {b : Byte} {c : Console} (h : c.Offers b) : c.tick.Offers b := by
  unfold Console.tick
  split
  · exact h
  · next e =>
    simp only [Console.Offers, e, reduceCtorEq, false_and, and_false, or_false] at h
    exact .inl (by simp [h])

/-- The start of a step leaves the character that is on offer (R32). -/
theorem Console.Offers.takeFeed {b : Byte} {c : Console} (h : c.Offers b) : c.takeFeed.Offers b := by
  cases hf : c.feed with
  | none => rwa [Console.takeFeed_none hf]
  | some n =>
    rw [Console.takeFeed_some hf]
    rcases h with h | ⟨hp, ha, ht⟩
    · exact .inl (by simp [h])
    · exact .inl (by simp [Console.standing, hp, ha, ht])

end Sys2Proof.Machine
end

