-- ==== Sys2Proof/Laws/Decode.lean ====
section
/-! SUPPORT. The small lemmas of the decoder's helpers. -/

namespace Sys2Proof

@[simp] theorem regOf_regBits (r : Reg) : regOf (regBits r) = r := by revert r; decide

@[simp] theorem regBits_regOf (b : BitVec 3) : regBits (regOf b) = b := by revert b; decide

/-- The bits of a field are the word's. -/
theorem field_getLsbD (w : Word) (lo len n : Nat) :
    (field w lo len).getLsbD n = (decide (n < len) && w.getLsbD (lo + n)) := by
  simp [field]

/-- A vector is supported exactly when it is one of the six (R50). -/
theorem trapVectorSupported_eq_false {vec : BitVec 8} (h : trapVectorSupported vec = false) :
    vec ≠ 0x20#8 ∧ vec ≠ 0x21#8 ∧ vec ≠ 0x22#8 ∧ vec ≠ 0x23#8 ∧ vec ≠ 0x24#8 ∧ vec ≠ 0x25#8 := by
  simp only [trapVectorSupported, Bool.or_eq_false_iff, beq_eq_false_iff_ne] at h
  tauto

end Sys2Proof
end

