-- ==== Sys2Proof/Laws/Memory.lean ====
section
/-! SUPPORT. The memory: what a read after a write gives, and that every operation keeps the canonical form. -/

namespace Sys2Proof.Machine

theorem Memory.wf_nil : Memory.wf [] := by simp [Memory.wf]

@[simp] theorem Memory.read_nil (a : Word) : Memory.read [] a = 0x0000#16 := rfl

theorem Memory.lookup_entry (k j : Nat) (v : Word) (m : Memory) (hm : v = Memory.unlisted → m.lookup k = v) :
    (Memory.entry k v m).lookup j = if k = j then v else m.lookup j := by
  unfold Memory.entry
  split
  · rename_i hv
    split
    · next h => subst h; exact hm hv
    · rfl
  · rfl

/-- A cell below every listed address is unlisted. -/
theorem Memory.lookup_below {m : Memory} {k : Nat} (h : ∀ c ∈ m, k < c.1) : m.lookup k = Memory.unlisted := by
  induction m with
  | nil => rfl
  | cons c rest ih =>
    obtain ⟨j, u⟩ := c
    have hj : k < j := h (j, u) (by simp)
    simp only [Memory.lookup]
    rw [if_neg (by omega)]
    exact ih fun d hd => h d (by simp [hd])

theorem Memory.wf_tail {c : Nat × Word} {rest : Memory} (h : Memory.wf (c :: rest)) : Memory.wf rest :=
  ⟨(List.pairwise_cons.mp h.1).2, fun d hd => h.2 d (by simp [hd])⟩

theorem Memory.wf_head_lt {c : Nat × Word} {rest : Memory} (h : Memory.wf (c :: rest)) : ∀ d ∈ rest, c.1 < d.1 :=
  (List.pairwise_cons.mp h.1).1

/-- Every cell but the written one reads as before, in any list. -/
theorem Memory.lookup_insert_ne (m : Memory) {k j : Nat} (v : Word) (h : j ≠ k) :
    (m.insert k v).lookup j = m.lookup j := by
  induction m with
  | nil => unfold Memory.insert Memory.entry; split <;> simp [Memory.lookup, Ne.symm h]
  | cons c rest ih =>
    obtain ⟨i, u⟩ := c
    simp only [Memory.insert]
    split
    · unfold Memory.entry; split <;> simp [Memory.lookup, Ne.symm h]
    · split
      · next hk => subst hk; unfold Memory.entry; split <;> simp [Memory.lookup, Ne.symm h]
      · simp [Memory.lookup, ih]

/-- The written cell reads as the value written. -/
theorem Memory.lookup_insert_self {m : Memory} (hm : m.wf) (k : Nat) (v : Word) : (m.insert k v).lookup k = v := by
  induction m with
  | nil => rw [Memory.insert, Memory.lookup_entry k k v [] (fun h => h.symm)]; simp
  | cons c rest ih =>
    obtain ⟨j, u⟩ := c
    have hlt := Memory.wf_head_lt hm
    simp only [Memory.insert]
    split
    · next hk =>
      rw [Memory.lookup_entry]
      · simp
      · intro hv
        rw [hv]
        refine Memory.lookup_below fun d hd => ?_
        rcases List.mem_cons.mp hd with rfl | hd
        · exact hk
        · exact Nat.lt_trans hk (hlt d hd)
    · split
      · next hk =>
        rw [Memory.lookup_entry]
        · simp
        · intro hv; rw [hv]; exact Memory.lookup_below fun d hd => hk ▸ hlt d hd
      · next hk => simp only [Memory.lookup]; rw [if_neg (Ne.symm hk)]; exact ih (Memory.wf_tail hm)

theorem Memory.mem_insert {m : Memory} {k : Nat} {v : Word} {c : Nat × Word} (h : c ∈ m.insert k v) :
    (c = (k, v) ∧ v ≠ Memory.unlisted) ∨ c ∈ m := by
  induction m with
  | nil => unfold Memory.insert Memory.entry at h; split at h <;> simp_all
  | cons d rest ih =>
    obtain ⟨j, u⟩ := d
    simp only [Memory.insert] at h
    split at h
    · unfold Memory.entry at h; split at h
      · exact .inr h
      · rcases List.mem_cons.mp h with rfl | h
        · exact .inl ⟨rfl, ‹_›⟩
        · exact .inr h
    · split at h
      · unfold Memory.entry at h; split at h
        · exact .inr (by simp [h])
        · rcases List.mem_cons.mp h with rfl | h
          · exact .inl ⟨rfl, ‹_›⟩
          · exact .inr (by simp [h])
      · rcases List.mem_cons.mp h with rfl | h
        · exact .inr (by simp)
        · exact (ih h).imp_right fun h => by simp [h]

theorem Memory.wf_cons {k : Nat} {v : Word} {m : Memory} (hk : k < Config.memWords) (hv : v ≠ Memory.unlisted)
    (hlt : ∀ c ∈ m, k < c.1) (hm : m.wf) : Memory.wf ((k, v) :: m) := by
  refine ⟨List.pairwise_cons.mpr ⟨hlt, hm.1⟩, fun c hc => ?_⟩
  rcases List.mem_cons.mp hc with rfl | hc
  · exact ⟨hk, hv⟩
  · exact hm.2 c hc

theorem Memory.wf_entry {k : Nat} {v : Word} {m : Memory} (hk : k < Config.memWords) (hlt : ∀ c ∈ m, k < c.1)
    (hm : m.wf) : (Memory.entry k v m).wf := by
  unfold Memory.entry
  split
  · exact hm
  · exact Memory.wf_cons hk ‹_› hlt hm

/-- Writing a cell keeps the canonical form. -/
theorem Memory.wf_insert {m : Memory} (hm : m.wf) {k : Nat} (hk : k < Config.memWords) (v : Word) :
    (m.insert k v).wf := by
  induction m with
  | nil => exact Memory.wf_entry hk (by simp) hm
  | cons c rest ih =>
    obtain ⟨j, u⟩ := c
    have hlt := Memory.wf_head_lt hm
    have hj := hm.2 (j, u) (by simp)
    simp only [Memory.insert]
    split
    · next h =>
      refine Memory.wf_entry hk (fun d hd => ?_) hm
      rcases List.mem_cons.mp hd with rfl | hd
      · exact h
      · exact Nat.lt_trans h (hlt d hd)
    · split
      · next h => exact Memory.wf_entry hk (fun d hd => h ▸ hlt d hd) (Memory.wf_tail hm)
      · next h1 h2 =>
        refine Memory.wf_cons hj.1 hj.2 (fun d hd => ?_) (ih (Memory.wf_tail hm))
        rcases Memory.mem_insert hd with ⟨rfl, -⟩ | hd
        · simp only at *; omega
        · exact hlt d hd

theorem Memory.wf_write {m : Memory} (hm : m.wf) (a v : Word) : (m.write a v).wf :=
  Memory.wf_insert hm a.isLt v

theorem Memory.read_write_self {m : Memory} (hm : m.wf) (a v : Word) : (m.write a v).read a = v :=
  Memory.lookup_insert_self hm a.toNat v

theorem Memory.read_write_ne (m : Memory) {a b : Word} (v : Word) (h : b ≠ a) : (m.write a v).read b = m.read b :=
  Memory.lookup_insert_ne m v fun e => h (BitVec.eq_of_toNat_eq e)

/-- Storing an image inside the space keeps the canonical form. -/
theorem Memory.wf_storeWords {m : Memory} (hm : m.wf) {k : Nat} {ws : List Word} (h : k + ws.length ≤ Config.memWords) :
    (m.storeWords k ws).wf := by
  induction ws generalizing m k with
  | nil => exact hm
  | cons w ws ih =>
    simp only [List.length_cons] at h
    exact ih (Memory.wf_insert hm (by omega) w) (by omega)

end Sys2Proof.Machine
end

