-- ==== Sys2Proof/Laws/State.lean ====
section
/-! SUPPORT. One lemma per field of State per update, and how the registers read after each update. -/

namespace Sys2Proof.Machine

@[simp] theorem State.setReg_gpr (s : State) (r : Reg) (v : Word) : (s.setReg r v).gpr = s.gpr.set r v := rfl
@[simp] theorem State.setReg_pc (s : State) (r : Reg) (v : Word) : (s.setReg r v).pc = s.pc := rfl
@[simp] theorem State.setReg_cond (s : State) (r : Reg) (v : Word) : (s.setReg r v).cond = s.cond := rfl
@[simp] theorem State.setReg_run (s : State) (r : Reg) (v : Word) : (s.setReg r v).run = s.run := rfl
@[simp] theorem State.setReg_faultRecord (s : State) (r : Reg) (v : Word) : (s.setReg r v).faultRecord = s.faultRecord := rfl
@[simp] theorem State.setReg_mem (s : State) (r : Reg) (v : Word) : (s.setReg r v).mem = s.mem := rfl
@[simp] theorem State.setReg_console (s : State) (r : Reg) (v : Word) : (s.setReg r v).console = s.console := rfl
@[simp] theorem State.setReg_draws (s : State) (r : Reg) (v : Word) : (s.setReg r v).draws = s.draws := rfl

@[simp] theorem State.setPc_gpr (s : State) (p : Word) : (s.setPc p).gpr = s.gpr := rfl
@[simp] theorem State.setPc_pc (s : State) (p : Word) : (s.setPc p).pc = p := rfl
@[simp] theorem State.setPc_cond (s : State) (p : Word) : (s.setPc p).cond = s.cond := rfl
@[simp] theorem State.setPc_run (s : State) (p : Word) : (s.setPc p).run = s.run := rfl
@[simp] theorem State.setPc_faultRecord (s : State) (p : Word) : (s.setPc p).faultRecord = s.faultRecord := rfl
@[simp] theorem State.setPc_mem (s : State) (p : Word) : (s.setPc p).mem = s.mem := rfl
@[simp] theorem State.setPc_console (s : State) (p : Word) : (s.setPc p).console = s.console := rfl
@[simp] theorem State.setPc_draws (s : State) (p : Word) : (s.setPc p).draws = s.draws := rfl
@[simp] theorem State.getReg_setPc (s : State) (p : Word) (k : Reg) : (s.setPc p).getReg k = s.getReg k := rfl

@[simp] theorem State.setCond_gpr (s : State) (c : Word) : (s.setCond c).gpr = s.gpr := rfl
@[simp] theorem State.setCond_pc (s : State) (c : Word) : (s.setCond c).pc = s.pc := rfl
@[simp] theorem State.setCond_cond (s : State) (c : Word) : (s.setCond c).cond = c := rfl
@[simp] theorem State.setCond_run (s : State) (c : Word) : (s.setCond c).run = s.run := rfl
@[simp] theorem State.setCond_faultRecord (s : State) (c : Word) : (s.setCond c).faultRecord = s.faultRecord := rfl
@[simp] theorem State.setCond_mem (s : State) (c : Word) : (s.setCond c).mem = s.mem := rfl
@[simp] theorem State.setCond_console (s : State) (c : Word) : (s.setCond c).console = s.console := rfl
@[simp] theorem State.setCond_draws (s : State) (c : Word) : (s.setCond c).draws = s.draws := rfl
@[simp] theorem State.getReg_setCond (s : State) (c : Word) (k : Reg) : (s.setCond c).getReg k = s.getReg k := rfl

@[simp] theorem State.setConsole_gpr (s : State) (c : Console) : (s.setConsole c).gpr = s.gpr := rfl
@[simp] theorem State.setConsole_pc (s : State) (c : Console) : (s.setConsole c).pc = s.pc := rfl
@[simp] theorem State.setConsole_cond (s : State) (c : Console) : (s.setConsole c).cond = s.cond := rfl
@[simp] theorem State.setConsole_run (s : State) (c : Console) : (s.setConsole c).run = s.run := rfl
@[simp] theorem State.setConsole_faultRecord (s : State) (c : Console) : (s.setConsole c).faultRecord = s.faultRecord := rfl
@[simp] theorem State.setConsole_mem (s : State) (c : Console) : (s.setConsole c).mem = s.mem := rfl
@[simp] theorem State.setConsole_console (s : State) (c : Console) : (s.setConsole c).console = c := rfl
@[simp] theorem State.setConsole_draws (s : State) (c : Console) : (s.setConsole c).draws = s.draws := rfl
@[simp] theorem State.getReg_setConsole (s : State) (c : Console) (k : Reg) : (s.setConsole c).getReg k = s.getReg k := rfl

@[simp] theorem State.takeFeed_gpr (s : State) : s.takeFeed.gpr = s.gpr := rfl
@[simp] theorem State.takeFeed_pc (s : State) : s.takeFeed.pc = s.pc := rfl
@[simp] theorem State.takeFeed_cond (s : State) : s.takeFeed.cond = s.cond := rfl
@[simp] theorem State.takeFeed_run (s : State) : s.takeFeed.run = s.run := rfl
@[simp] theorem State.takeFeed_faultRecord (s : State) : s.takeFeed.faultRecord = s.faultRecord := rfl
@[simp] theorem State.takeFeed_mem (s : State) : s.takeFeed.mem = s.mem := rfl
@[simp] theorem State.takeFeed_draws (s : State) : s.takeFeed.draws = s.draws := rfl
@[simp] theorem State.takeFeed_console (s : State) : s.takeFeed.console = s.console.takeFeed := rfl
@[simp] theorem State.getReg_takeFeed (s : State) (k : Reg) : s.takeFeed.getReg k = s.getReg k := rfl

@[simp] theorem State.draw_gpr (s : State) : (s.draw).gpr = s.gpr := rfl
@[simp] theorem State.draw_pc (s : State) : (s.draw).pc = s.pc := rfl
@[simp] theorem State.draw_cond (s : State) : (s.draw).cond = s.cond := rfl
@[simp] theorem State.draw_run (s : State) : (s.draw).run = s.run := rfl
@[simp] theorem State.draw_faultRecord (s : State) : (s.draw).faultRecord = s.faultRecord := rfl
@[simp] theorem State.draw_mem (s : State) : (s.draw).mem = s.mem := rfl
@[simp] theorem State.draw_console (s : State) : (s.draw).console = s.console := rfl
@[simp] theorem State.draw_draws (s : State) : (s.draw).draws = s.draws + 1 := rfl
@[simp] theorem State.getReg_draw (s : State) (k : Reg) : (s.draw).getReg k = s.getReg k := rfl

@[simp] theorem State.memWrite_gpr (s : State) (a v : Word) : (s.memWrite a v).gpr = s.gpr := rfl
@[simp] theorem State.memWrite_pc (s : State) (a v : Word) : (s.memWrite a v).pc = s.pc := rfl
@[simp] theorem State.memWrite_cond (s : State) (a v : Word) : (s.memWrite a v).cond = s.cond := rfl
@[simp] theorem State.memWrite_run (s : State) (a v : Word) : (s.memWrite a v).run = s.run := rfl
@[simp] theorem State.memWrite_faultRecord (s : State) (a v : Word) : (s.memWrite a v).faultRecord = s.faultRecord := rfl
@[simp] theorem State.memWrite_mem (s : State) (a v : Word) : (s.memWrite a v).mem = s.mem.write a v := rfl
@[simp] theorem State.memWrite_console (s : State) (a v : Word) : (s.memWrite a v).console = s.console := rfl
@[simp] theorem State.memWrite_draws (s : State) (a v : Word) : (s.memWrite a v).draws = s.draws := rfl
@[simp] theorem State.getReg_memWrite (s : State) (a v : Word) (k : Reg) : (s.memWrite a v).getReg k = s.getReg k := rfl

@[simp] theorem State.writeChars_gpr (s : State) (bs : List Byte) : (s.writeChars bs).gpr = s.gpr := rfl
@[simp] theorem State.writeChars_pc (s : State) (bs : List Byte) : (s.writeChars bs).pc = s.pc := rfl
@[simp] theorem State.writeChars_cond (s : State) (bs : List Byte) : (s.writeChars bs).cond = s.cond := rfl
@[simp] theorem State.writeChars_run (s : State) (bs : List Byte) : (s.writeChars bs).run = s.run := rfl
@[simp] theorem State.writeChars_faultRecord (s : State) (bs : List Byte) : (s.writeChars bs).faultRecord = s.faultRecord := rfl
@[simp] theorem State.writeChars_mem (s : State) (bs : List Byte) : (s.writeChars bs).mem = s.mem := rfl
@[simp] theorem State.writeChars_console (s : State) (bs : List Byte) : (s.writeChars bs).console = s.console.write bs := rfl
@[simp] theorem State.writeChars_draws (s : State) (bs : List Byte) : (s.writeChars bs).draws = s.draws := rfl
@[simp] theorem State.getReg_writeChars (s : State) (bs : List Byte) (k : Reg) : (s.writeChars bs).getReg k = s.getReg k := rfl

@[simp] theorem State.enterHalted_gpr (s : State) : (s.enterHalted).gpr = s.gpr := rfl
@[simp] theorem State.enterHalted_pc (s : State) : (s.enterHalted).pc = s.pc := rfl
@[simp] theorem State.enterHalted_cond (s : State) : (s.enterHalted).cond = s.cond := rfl
@[simp] theorem State.enterHalted_run (s : State) : (s.enterHalted).run = .halted := rfl
@[simp] theorem State.enterHalted_faultRecord (s : State) : (s.enterHalted).faultRecord = s.faultRecord := rfl
@[simp] theorem State.enterHalted_mem (s : State) : (s.enterHalted).mem = s.mem := rfl
@[simp] theorem State.enterHalted_console (s : State) : (s.enterHalted).console = s.console := rfl
@[simp] theorem State.enterHalted_draws (s : State) : (s.enterHalted).draws = s.draws := rfl
@[simp] theorem State.getReg_enterHalted (s : State) (k : Reg) : (s.enterHalted).getReg k = s.getReg k := rfl

@[simp] theorem State.raiseFault_gpr (s : State) (c : FaultCause) (w : Word) : (s.raiseFault c w).gpr = s.gpr := rfl
@[simp] theorem State.raiseFault_pc (s : State) (c : FaultCause) (w : Word) : (s.raiseFault c w).pc = s.pc := rfl
@[simp] theorem State.raiseFault_cond (s : State) (c : FaultCause) (w : Word) : (s.raiseFault c w).cond = s.cond := rfl
@[simp] theorem State.raiseFault_run (s : State) (c : FaultCause) (w : Word) : (s.raiseFault c w).run = .faulted := rfl
@[simp] theorem State.raiseFault_faultRecord (s : State) (c : FaultCause) (w : Word) : (s.raiseFault c w).faultRecord = some { cause := c, instr := w, pc := s.pc - 1 } := rfl
@[simp] theorem State.raiseFault_mem (s : State) (c : FaultCause) (w : Word) : (s.raiseFault c w).mem = s.mem := rfl
@[simp] theorem State.raiseFault_console (s : State) (c : FaultCause) (w : Word) : (s.raiseFault c w).console = s.console := rfl
@[simp] theorem State.raiseFault_draws (s : State) (c : FaultCause) (w : Word) : (s.raiseFault c w).draws = s.draws := rfl
@[simp] theorem State.getReg_raiseFault (s : State) (c : FaultCause) (w : Word) (k : Reg) : (s.raiseFault c w).getReg k = s.getReg k := rfl

@[simp] theorem State.updateFlags_gpr (s : State) (v : Word) : (s.updateFlags v).gpr = s.gpr := rfl
@[simp] theorem State.updateFlags_pc (s : State) (v : Word) : (s.updateFlags v).pc = s.pc := rfl
@[simp] theorem State.updateFlags_cond (s : State) (v : Word) : (s.updateFlags v).cond = flagsOf v := rfl
@[simp] theorem State.updateFlags_run (s : State) (v : Word) : (s.updateFlags v).run = s.run := rfl
@[simp] theorem State.updateFlags_faultRecord (s : State) (v : Word) : (s.updateFlags v).faultRecord = s.faultRecord := rfl
@[simp] theorem State.updateFlags_mem (s : State) (v : Word) : (s.updateFlags v).mem = s.mem := rfl
@[simp] theorem State.updateFlags_console (s : State) (v : Word) : (s.updateFlags v).console = s.console := rfl
@[simp] theorem State.updateFlags_draws (s : State) (v : Word) : (s.updateFlags v).draws = s.draws := rfl
@[simp] theorem State.getReg_updateFlags (s : State) (v : Word) (k : Reg) : (s.updateFlags v).getReg k = s.getReg k := rfl

@[simp] theorem State.writeResult_gpr (s : State) (r : Reg) (v : Word) : (s.writeResult r v).gpr = s.gpr.set r v := rfl
@[simp] theorem State.writeResult_pc (s : State) (r : Reg) (v : Word) : (s.writeResult r v).pc = s.pc := rfl
@[simp] theorem State.writeResult_cond (s : State) (r : Reg) (v : Word) : (s.writeResult r v).cond = flagsOf v := rfl
@[simp] theorem State.writeResult_run (s : State) (r : Reg) (v : Word) : (s.writeResult r v).run = s.run := rfl
@[simp] theorem State.writeResult_faultRecord (s : State) (r : Reg) (v : Word) : (s.writeResult r v).faultRecord = s.faultRecord := rfl
@[simp] theorem State.writeResult_mem (s : State) (r : Reg) (v : Word) : (s.writeResult r v).mem = s.mem := rfl
@[simp] theorem State.writeResult_console (s : State) (r : Reg) (v : Word) : (s.writeResult r v).console = s.console := rfl
@[simp] theorem State.writeResult_draws (s : State) (r : Reg) (v : Word) : (s.writeResult r v).draws = s.draws := rfl

@[simp] theorem State.jumpThrough_gpr (s : State) (r : Reg) : (s.jumpThrough r).gpr = s.gpr := rfl
@[simp] theorem State.jumpThrough_pc (s : State) (r : Reg) : (s.jumpThrough r).pc = s.getReg r := rfl
@[simp] theorem State.jumpThrough_cond (s : State) (r : Reg) : (s.jumpThrough r).cond = s.cond := rfl
@[simp] theorem State.jumpThrough_run (s : State) (r : Reg) : (s.jumpThrough r).run = s.run := rfl
@[simp] theorem State.jumpThrough_faultRecord (s : State) (r : Reg) : (s.jumpThrough r).faultRecord = s.faultRecord := rfl
@[simp] theorem State.jumpThrough_mem (s : State) (r : Reg) : (s.jumpThrough r).mem = s.mem := rfl
@[simp] theorem State.jumpThrough_console (s : State) (r : Reg) : (s.jumpThrough r).console = s.console := rfl
@[simp] theorem State.jumpThrough_draws (s : State) (r : Reg) : (s.jumpThrough r).draws = s.draws := rfl
@[simp] theorem State.getReg_jumpThrough (s : State) (r : Reg) (k : Reg) : (s.jumpThrough r).getReg k = s.getReg k := rfl

@[simp] theorem State.call_gpr (s : State) (p : Word) : (s.call p).gpr = s.gpr.set 7 s.pc := rfl
@[simp] theorem State.call_pc (s : State) (p : Word) : (s.call p).pc = p := rfl
@[simp] theorem State.call_cond (s : State) (p : Word) : (s.call p).cond = s.cond := rfl
@[simp] theorem State.call_run (s : State) (p : Word) : (s.call p).run = s.run := rfl
@[simp] theorem State.call_faultRecord (s : State) (p : Word) : (s.call p).faultRecord = s.faultRecord := rfl
@[simp] theorem State.call_mem (s : State) (p : Word) : (s.call p).mem = s.mem := rfl
@[simp] theorem State.call_console (s : State) (p : Word) : (s.call p).console = s.console := rfl
@[simp] theorem State.call_draws (s : State) (p : Word) : (s.call p).draws = s.draws := rfl

theorem State.getReg_setReg (s : State) (r k : Reg) (v : Word) :
    (s.setReg r v).getReg k = if k = r then v else s.getReg k := by
  simp [State.getReg, State.setReg, Vector.getElem_set, Fin.ext_iff, eq_comm]

@[simp] theorem State.getReg_setReg_self (s : State) (r : Reg) (v : Word) : (s.setReg r v).getReg r = v := by
  simp [State.getReg_setReg]

theorem State.getReg_setReg_ne (s : State) (v : Word) {r k : Reg} (h : k ≠ r) :
    (s.setReg r v).getReg k = s.getReg k := by
  simp [State.getReg_setReg, h]

@[simp] theorem State.getReg_writeResult_self (s : State) (r : Reg) (v : Word) : (s.writeResult r v).getReg r = v :=
  s.getReg_setReg_self r v

theorem State.getReg_writeResult_ne (s : State) (v : Word) {r k : Reg} (h : k ≠ r) :
    (s.writeResult r v).getReg k = s.getReg k :=
  s.getReg_setReg_ne v h

@[simp] theorem State.getReg_call_link (s : State) (p : Word) : (s.call p).getReg 7 = s.pc :=
  s.getReg_setReg_self 7 s.pc

theorem State.getReg_call_ne (s : State) (p : Word) {k : Reg} (h : k ≠ 7) : (s.call p).getReg k = s.getReg k :=
  s.getReg_setReg_ne s.pc h

/-- Two states with the same fields are the same; registers compare one by one. -/
theorem State.ext_of_fields {s t : State} (hr : ∀ r, s.getReg r = t.getReg r) (hp : s.pc = t.pc) (hc : s.cond = t.cond)
    (hu : s.run = t.run) (hf : s.faultRecord = t.faultRecord) (hm : s.mem = t.mem) (ho : s.console = t.console)
    (hd : s.draws = t.draws) : s = t := by
  cases s
  cases t
  simp only [State.mk.injEq]
  refine ⟨?_, hp, hc, hu, hf, hm, ho, hd⟩
  exact Vector.ext fun i h => hr ⟨i, h⟩

end Sys2Proof.Machine
end

