-- ==== Sys2Proof/Laws/Ops.lean ====
section
/-! SUPPORT. What the read path and the string loop can do, said once. -/

namespace Sys2Proof.Machine

/-- The two answers of a read of KBDR (R32): the character is there and is consumed, or a free value is drawn. -/
theorem State.readKbdr_cases (s : State) :
    (∃ c con, s.console.tick.ready = true ∧ s.console.tick.read = some (c, con) ∧
      s.readKbdr = (zext16 c, (s.setConsole con).memWrite Config.kbdrAddr (zext16 c))) ∨
    (s.console.tick.ready = false ∧
      s.readKbdr = (Config.kbdrEmpty s.draws,
        ((s.setConsole s.console.tick).draw).memWrite Config.kbdrAddr (Config.kbdrEmpty s.draws))) := by
  cases h : s.console.tick.ready with
  | true =>
    obtain ⟨c, con, hr⟩ := Console.read_of_ready h
    exact .inl ⟨c, con, rfl, hr, by simp [State.readKbdr, h, hr]⟩
  | false => exact .inr ⟨rfl, by simp [State.readKbdr, h]⟩

theorem State.readKbsr_eq (s : State) :
    s.readKbsr = (if s.console.tick.ready then 0x8000#16 else 0x0000#16,
      (s.setConsole s.console.tick).memWrite Config.kbsrAddr (if s.console.tick.ready then 0x8000#16 else 0x0000#16)) :=
  rfl

/-- A read of any other cell returns it and changes nothing (R29). -/
theorem State.memRead_plain (s : State) {a : Word} (h1 : a ≠ Config.kbsrAddr) (h2 : a ≠ Config.kbdrAddr) :
    s.memRead a = (s.mem.read a, s) := by
  simp [State.memRead, h1, h2]

@[simp] theorem State.memRead_kbsr (s : State) : s.memRead Config.kbsrAddr = s.readKbsr := by
  simp [State.memRead]

@[simp] theorem State.memRead_kbdr (s : State) : s.memRead Config.kbdrAddr = s.readKbdr := by
  simp [State.memRead, show Config.kbdrAddr ≠ Config.kbsrAddr by decide]

/-- Everything a read can do to the state: it changes the console's input, the count of draws, and the cell it reads,
which it sets to the value it answers, all only at a keyboard cell. -/
theorem State.memRead_cases (s : State) (a : Word) :
    s.memRead a = (s.mem.read a, s) ∨
    ∃ con n v, con.output = s.console.output ∧ con.tail = s.console.tail ∧ con.feed = s.console.feed ∧
      (a = Config.kbsrAddr ∨ a = Config.kbdrAddr) ∧
      s.memRead a = (v, { s with console := con, draws := n, mem := s.mem.write a v }) := by
  by_cases h1 : a = Config.kbsrAddr
  · subst h1
    exact .inr ⟨s.console.tick, s.draws, _, by simp, by simp, by simp, .inl rfl, by rw [State.memRead_kbsr, State.readKbsr_eq]; rfl⟩
  · by_cases h2 : a = Config.kbdrAddr
    · subst h2
      rw [State.memRead_kbdr]
      obtain ⟨c, con, -, hr, he⟩ | ⟨-, he⟩ := s.readKbdr_cases
      · have ho := Console.read_output hr
        exact .inr ⟨con, s.draws, _, by simp [ho.1], by simp [ho.2.1], by simp [ho.2.2], .inr rfl, by rw [he]; rfl⟩
      · exact .inr ⟨s.console.tick, s.draws + 1, _, by simp, by simp, by simp, .inr rfl, by rw [he]; rfl⟩
    · exact .inl (s.memRead_plain h1 h2)

@[simp] theorem State.memRead_gpr (s : State) (a : Word) : (s.memRead a).2.gpr = s.gpr := by
  obtain h | ⟨_, _, _, -, -, -, -, h⟩ := s.memRead_cases a <;> rw [h]
@[simp] theorem State.memRead_pc (s : State) (a : Word) : (s.memRead a).2.pc = s.pc := by
  obtain h | ⟨_, _, _, -, -, -, -, h⟩ := s.memRead_cases a <;> rw [h]
@[simp] theorem State.memRead_cond (s : State) (a : Word) : (s.memRead a).2.cond = s.cond := by
  obtain h | ⟨_, _, _, -, -, -, -, h⟩ := s.memRead_cases a <;> rw [h]
@[simp] theorem State.memRead_run (s : State) (a : Word) : (s.memRead a).2.run = s.run := by
  obtain h | ⟨_, _, _, -, -, -, -, h⟩ := s.memRead_cases a <;> rw [h]
@[simp] theorem State.memRead_faultRecord (s : State) (a : Word) : (s.memRead a).2.faultRecord = s.faultRecord := by
  obtain h | ⟨_, _, _, -, -, -, -, h⟩ := s.memRead_cases a <;> rw [h]
@[simp] theorem State.memRead_output (s : State) (a : Word) : (s.memRead a).2.console.output = s.console.output := by
  obtain h | ⟨_, _, _, ho, -, -, -, h⟩ := s.memRead_cases a <;> rw [h]
  exact ho
@[simp] theorem State.getReg_memRead (s : State) (a : Word) (r : Reg) : (s.memRead a).2.getReg r = s.getReg r := by
  simp [State.getReg]

/-- A read changes no cell but the one it reads. -/
theorem State.memRead_mem_ne (s : State) {a b : Word} (h : b ≠ a) : (s.memRead a).2.mem.read b = s.mem.read b := by
  obtain e | ⟨_, _, _, -, -, -, -, e⟩ := s.memRead_cases a <;> rw [e]
  exact Memory.read_write_ne _ _ h

/-- A read changes no cell but the two keyboard cells. -/
theorem State.memRead_mem_plain (s : State) (a : Word) {b : Word} (h1 : b ≠ Config.kbsrAddr) (h2 : b ≠ Config.kbdrAddr) :
    (s.memRead a).2.mem.read b = s.mem.read b := by
  obtain e | ⟨_, _, _, -, -, -, hk, e⟩ := s.memRead_cases a <;> rw [e]
  refine Memory.read_write_ne _ _ ?_
  rcases hk with rfl | rfl <;> assumption

theorem State.memRead_wf {s : State} (h : s.mem.wf) (a : Word) : (s.memRead a).2.mem.wf := by
  obtain e | ⟨_, _, _, -, -, -, -, e⟩ := s.memRead_cases a <;> rw [e]
  · exact h
  · exact Memory.wf_write h _ _

/-- A read does not add to the characters left. -/
theorem State.memRead_charsLeft (s : State) (a : Word) : (s.memRead a).2.console.charsLeft ≤ s.console.charsLeft := by
  by_cases h1 : a = Config.kbsrAddr
  · subst h1; simp [State.readKbsr_eq, Console.tick_charsLeft]
  by_cases h2 : a = Config.kbdrAddr
  · subst h2
    rw [State.memRead_kbdr, ← s.console.tick_charsLeft]
    obtain ⟨c, con, -, hr, he⟩ | ⟨-, he⟩ := s.readKbdr_cases
    · rw [he]; exact Console.read_charsLeft hr
    · rw [he]; exact Nat.le_refl _
  · rw [State.memRead_plain _ h1 h2]

/-- A non-zero KBSR means that a character is available. -/
theorem State.kbsr_ready {s : State} (h : (s.memRead Config.kbsrAddr).1 ≠ 0x0000#16) : s.console.tick.ready = true := by
  simpa [State.readKbsr_eq] using h

/-- The string loop, packaged: what a read and a console write keep, a finished string routine keeps. -/
theorem State.stringLoop_keeps {P : State → Prop} (hread : ∀ s a, P s → P (s.memRead a).2)
    (hwrite : ∀ s bs, P s → P (s.writeChars bs)) {chars : Word → List Byte} {fuel : Nat} {a : Word} {s t : State}
    (h : State.stringLoop chars fuel a s = some t) (hs : P s) : P t := by
  induction fuel generalizing a s with
  | zero => simp [State.stringLoop] at h
  | succ n ih =>
    simp only [State.stringLoop] at h
    split at h
    · cases h; exact hread _ _ hs
    · exact ih h (hwrite _ _ (hread _ _ hs))

/-- What a string routine answers. -/
theorem State.stringRoutine_next {s t : State} {chars : Word → List Byte} (h : s.stringRoutine chars = .next t) :
    State.stringLoop chars s.stringFuel (s.getReg 0) s = some t := by
  unfold State.stringRoutine at h
  split at h
  · next e => cases h; exact e
  · cases h

/-- What GETC answers. -/
theorem State.getcRoutine_next {s t : State} (h : s.getcRoutine = .next t) :
    ∃ c con, s.console.read = some (c, con) ∧ t = (s.setConsole con).setReg 0 (zext16 c) := by
  unfold State.getcRoutine at h
  split at h
  · next e => cases h; exact ⟨_, _, e, rfl⟩
  · cases h

/-- What IN answers. -/
theorem State.inRoutine_next {s t : State} (h : s.inRoutine = .next t) :
    ∃ c con, (s.writeChars Config.inPrompt).console.read = some (c, con) ∧
      t = (((s.writeChars Config.inPrompt).setConsole con).writeChars [c]).setReg 0 (zext16 c) := by
  simp only [State.inRoutine] at h
  split at h
  · next e => cases h; exact ⟨_, _, e, rfl⟩
  · cases h

/-- What a step from RUNNING can do: it executes the decoded word in the fetch's state, over the step's
console input. -/
theorem step_next {s t : State} (h : step s = .next t) :
    s.run = .running ∧ exec (decode s.takeFeed.fetch.1) s.takeFeed.fetch.2 = .next t := by
  unfold step at h
  split at h
  · exact ⟨‹_›, h⟩
  · cases h
  · cases h

end Sys2Proof.Machine
end

