-- ==== Sys2Proof/Laws/PerInstr.lean ====
section
/-! SUPPORT. Per instruction: the encoder against the rows of spec/opcode_table.json. -/

namespace Sys2Proof.Laws.TableRow

/-- The `match` and the `mask` of an instruction's row in spec/opcode_table.json. -/
def row : Instr → Word × Word
  | .addReg _ _ _ _ => (0x1000#16, 0xF020#16)
  | .addImm _ _ _ => (0x1020#16, 0xF020#16)
  | .andReg _ _ _ _ => (0x5000#16, 0xF020#16)
  | .andImm _ _ _ => (0x5020#16, 0xF020#16)
  | .not _ _ _ => (0x9000#16, 0xF000#16)
  | .br _ _ => (0x0000#16, 0xF000#16)
  | .jmp _ _ _ => (0xC000#16, 0xF000#16)
  | .ret _ _ => (0xC1C0#16, 0xF1C0#16)
  | .jsr _ => (0x4800#16, 0xF800#16)
  | .jsrr _ _ _ => (0x4000#16, 0xF800#16)
  | .ld _ _ => (0x2000#16, 0xF000#16)
  | .ldi _ _ => (0xA000#16, 0xF000#16)
  | .ldr _ _ _ => (0x6000#16, 0xF000#16)
  | .lea _ _ => (0xE000#16, 0xF000#16)
  | .st _ _ => (0x3000#16, 0xF000#16)
  | .sti _ _ => (0xB000#16, 0xF000#16)
  | .str _ _ _ => (0x7000#16, 0xF000#16)
  | .trap _ _ => (0xF000#16, 0xF000#16)
  | .getc _ => (0xF020#16, 0xF0FF#16)
  | .out _ => (0xF021#16, 0xF0FF#16)
  | .puts _ => (0xF022#16, 0xF0FF#16)
  | .inp _ => (0xF023#16, 0xF0FF#16)
  | .putsp _ => (0xF024#16, 0xF0FF#16)
  | .halt _ => (0xF025#16, 0xF0FF#16)
  | .reserved1000 _ => (0x8000#16, 0xF000#16)
  | .reserved1101 _ => (0xD000#16, 0xF000#16)

/-- An instruction's word has the fixed bits of its row. -/
def Statement (i : Instr) : Prop := encode i &&& (row i).2 = (row i).1

/-- Two words that agree on each of the 16 bits. -/
theorem word_ext {v w : Word} (h : ∀ n, n < 16 → v.getLsbD n = w.getLsbD n) : v = w :=
  BitVec.eq_of_getLsbD_eq fun n hn => h n hn

theorem addReg (dr : Reg) (sr1 : Reg) (x : BitVec 2) (sr2 : Reg) : Statement (.addReg dr sr1 x sr2) := by
  refine word_ext fun n hn => ?_
  interval_cases n <;> simp only [encode, row, BitVec.getLsbD_and, BitVec.getLsbD_append] <;> simp

theorem addImm (dr : Reg) (sr1 : Reg) (imm5 : BitVec 5) : Statement (.addImm dr sr1 imm5) := by
  refine word_ext fun n hn => ?_
  interval_cases n <;> simp only [encode, row, BitVec.getLsbD_and, BitVec.getLsbD_append] <;> simp

theorem andReg (dr : Reg) (sr1 : Reg) (x : BitVec 2) (sr2 : Reg) : Statement (.andReg dr sr1 x sr2) := by
  refine word_ext fun n hn => ?_
  interval_cases n <;> simp only [encode, row, BitVec.getLsbD_and, BitVec.getLsbD_append] <;> simp

theorem andImm (dr : Reg) (sr1 : Reg) (imm5 : BitVec 5) : Statement (.andImm dr sr1 imm5) := by
  refine word_ext fun n hn => ?_
  interval_cases n <;> simp only [encode, row, BitVec.getLsbD_and, BitVec.getLsbD_append] <;> simp

theorem not (dr : Reg) (sr : Reg) (x : BitVec 6) : Statement (.not dr sr x) := by
  refine word_ext fun n hn => ?_
  interval_cases n <;> simp only [encode, row, BitVec.getLsbD_and, BitVec.getLsbD_append] <;> simp

theorem br (nzp : BitVec 3) (off9 : BitVec 9) : Statement (.br nzp off9) := by
  refine word_ext fun n hn => ?_
  interval_cases n <;> simp only [encode, row, BitVec.getLsbD_and, BitVec.getLsbD_append] <;> simp

theorem jmp (x : BitVec 3) (base : Reg) (y : BitVec 6) : Statement (.jmp x base y) := by
  refine word_ext fun n hn => ?_
  interval_cases n <;> simp only [encode, row, BitVec.getLsbD_and, BitVec.getLsbD_append] <;> simp

theorem ret (x : BitVec 3) (y : BitVec 6) : Statement (.ret x y) := by
  refine word_ext fun n hn => ?_
  interval_cases n <;> simp only [encode, row, BitVec.getLsbD_and, BitVec.getLsbD_append] <;> simp

theorem jsr (off11 : BitVec 11) : Statement (.jsr off11) := by
  refine word_ext fun n hn => ?_
  interval_cases n <;> simp only [encode, row, BitVec.getLsbD_and, BitVec.getLsbD_append] <;> simp

theorem jsrr (x : BitVec 2) (base : Reg) (y : BitVec 6) : Statement (.jsrr x base y) := by
  refine word_ext fun n hn => ?_
  interval_cases n <;> simp only [encode, row, BitVec.getLsbD_and, BitVec.getLsbD_append] <;> simp

theorem ld (dr : Reg) (off9 : BitVec 9) : Statement (.ld dr off9) := by
  refine word_ext fun n hn => ?_
  interval_cases n <;> simp only [encode, row, BitVec.getLsbD_and, BitVec.getLsbD_append] <;> simp

theorem ldi (dr : Reg) (off9 : BitVec 9) : Statement (.ldi dr off9) := by
  refine word_ext fun n hn => ?_
  interval_cases n <;> simp only [encode, row, BitVec.getLsbD_and, BitVec.getLsbD_append] <;> simp

theorem ldr (dr : Reg) (base : Reg) (off6 : BitVec 6) : Statement (.ldr dr base off6) := by
  refine word_ext fun n hn => ?_
  interval_cases n <;> simp only [encode, row, BitVec.getLsbD_and, BitVec.getLsbD_append] <;> simp

theorem lea (dr : Reg) (off9 : BitVec 9) : Statement (.lea dr off9) := by
  refine word_ext fun n hn => ?_
  interval_cases n <;> simp only [encode, row, BitVec.getLsbD_and, BitVec.getLsbD_append] <;> simp

theorem st (sr : Reg) (off9 : BitVec 9) : Statement (.st sr off9) := by
  refine word_ext fun n hn => ?_
  interval_cases n <;> simp only [encode, row, BitVec.getLsbD_and, BitVec.getLsbD_append] <;> simp

theorem sti (sr : Reg) (off9 : BitVec 9) : Statement (.sti sr off9) := by
  refine word_ext fun n hn => ?_
  interval_cases n <;> simp only [encode, row, BitVec.getLsbD_and, BitVec.getLsbD_append] <;> simp

theorem str (sr : Reg) (base : Reg) (off6 : BitVec 6) : Statement (.str sr base off6) := by
  refine word_ext fun n hn => ?_
  interval_cases n <;> simp only [encode, row, BitVec.getLsbD_and, BitVec.getLsbD_append] <;> simp

theorem trap (x : BitVec 4) (vec : BitVec 8) : Statement (.trap x vec) := by
  refine word_ext fun n hn => ?_
  interval_cases n <;> simp only [encode, row, BitVec.getLsbD_and, BitVec.getLsbD_append] <;> simp

theorem getc (x : BitVec 4) : Statement (.getc x) := by
  refine word_ext fun n hn => ?_
  interval_cases n <;> simp only [encode, row, BitVec.getLsbD_and, BitVec.getLsbD_append] <;> simp

theorem out (x : BitVec 4) : Statement (.out x) := by
  refine word_ext fun n hn => ?_
  interval_cases n <;> simp only [encode, row, BitVec.getLsbD_and, BitVec.getLsbD_append] <;> simp

theorem puts (x : BitVec 4) : Statement (.puts x) := by
  refine word_ext fun n hn => ?_
  interval_cases n <;> simp only [encode, row, BitVec.getLsbD_and, BitVec.getLsbD_append] <;> simp

theorem inp (x : BitVec 4) : Statement (.inp x) := by
  refine word_ext fun n hn => ?_
  interval_cases n <;> simp only [encode, row, BitVec.getLsbD_and, BitVec.getLsbD_append] <;> simp

theorem putsp (x : BitVec 4) : Statement (.putsp x) := by
  refine word_ext fun n hn => ?_
  interval_cases n <;> simp only [encode, row, BitVec.getLsbD_and, BitVec.getLsbD_append] <;> simp

theorem halt (x : BitVec 4) : Statement (.halt x) := by
  refine word_ext fun n hn => ?_
  interval_cases n <;> simp only [encode, row, BitVec.getLsbD_and, BitVec.getLsbD_append] <;> simp

theorem reserved1000 (x : BitVec 12) : Statement (.reserved1000 x) := by
  refine word_ext fun n hn => ?_
  interval_cases n <;> simp only [encode, row, BitVec.getLsbD_and, BitVec.getLsbD_append] <;> simp

theorem reserved1101 (x : BitVec 12) : Statement (.reserved1101 x) := by
  refine word_ext fun n hn => ?_
  interval_cases n <;> simp only [encode, row, BitVec.getLsbD_and, BitVec.getLsbD_append] <;> simp

end Sys2Proof.Laws.TableRow
end

