-- ==== Sys2Proof/Laws/Trap.lean ====
section
/-! SUPPORT. What TRAP can answer, and that the bound of the string loop is exact: a loop that finds no zero word
within `stringFuel` words finds none in any number of words (log entry 6). -/

namespace Sys2Proof.Machine

/-- What TRAP answers: one of the six routines' answers, or the fault. -/
theorem execTrap_next {x : BitVec 4} {vec : BitVec 8} {s t : State} (h : execTrap x vec s = .next t) :
    (vec = 0x20#8 ∧ s.getcRoutine = .next t) ∨ (vec = 0x21#8 ∧ s.outRoutine = .next t) ∨
    (vec = 0x22#8 ∧ s.stringRoutine putsChars = .next t) ∨ (vec = 0x23#8 ∧ s.inRoutine = .next t) ∨
    (vec = 0x24#8 ∧ s.stringRoutine putspChars = .next t) ∨ (vec = 0x25#8 ∧ s.haltRoutine = .next t) ∨
    (trapVectorSupported vec = false ∧ t = s.raiseFault .unsupportedTrap (encode (.trap x vec))) := by
  by_cases hv : trapVectorSupported vec = true
  · simp only [trapVectorSupported, Bool.or_eq_true, beq_iff_eq] at hv
    rcases hv with ((((rfl | rfl) | rfl) | rfl) | rfl) | rfl
    · exact .inl ⟨rfl, h⟩
    · exact .inr (.inl ⟨rfl, h⟩)
    · exact .inr (.inr (.inl ⟨rfl, h⟩))
    · exact .inr (.inr (.inr (.inl ⟨rfl, h⟩)))
    · exact .inr (.inr (.inr (.inr (.inl ⟨rfl, h⟩))))
    · exact .inr (.inr (.inr (.inr (.inr (.inl ⟨rfl, h⟩)))))
  · have hf : trapVectorSupported vec = false := by simpa using hv
    obtain ⟨h0, h1, h2, h3, h4, h5⟩ := trapVectorSupported_eq_false hf
    simp only [execTrap, h0, h1, h2, h3, h4, h5, if_false, Host.Outcome.next.injEq] at h
    exact .inr (.inr (.inr (.inr (.inr (.inr ⟨hf, h.symm⟩)))))

/-- One turn of the string loop: the next address, and the state after the read and the writes. -/
def turn (chars : Word → List Byte) (p : Word × State) : Word × State :=
  (p.1 + 1, (p.2.memRead p.1).2.writeChars (chars (p.2.memRead p.1).1))

/-- `k` turns. -/
def turns (chars : Word → List Byte) : Nat → Word × State → Word × State
  | 0, p => p
  | k + 1, p => turns chars k (turn chars p)

variable {chars : Word → List Byte}

theorem turns_fst (k : Nat) (p : Word × State) : (turns chars k p).1 = p.1 + BitVec.ofNat 16 k := by
  induction k generalizing p with
  | zero => simp [turns]
  | succ k ih =>
    rw [turns, ih]
    apply BitVec.eq_of_toNat_eq
    simp [turn]
    omega

theorem turns_add (j k : Nat) (p : Word × State) : turns chars (j + k) p = turns chars k (turns chars j p) := by
  induction j generalizing p with
  | zero => simp [turns]
  | succ j ih => rw [show j + 1 + k = (j + k) + 1 by omega, turns, ih, turns]

/-- What every turn keeps, `k` turns keep. -/
theorem turns_keeps {P : State → Prop} (h : ∀ p, P p.2 → P (turn chars p).2) (k : Nat) (p : Word × State) (hp : P p.2) :
    P (turns chars k p).2 := by
  induction k generalizing p with
  | zero => exact hp
  | succ k ih => exact ih _ (h p hp)

/-- A loop that reads no zero word goes on from where `k` turns lead; if it never ends from there, it never ends. -/
theorem stringLoop_turns (k n : Nat) {a : Word} {s : State} (h : State.stringLoop chars (k + n) a s = none) :
    State.stringLoop chars n (turns chars k (a, s)).1 (turns chars k (a, s)).2 = none ∧
    ((∀ m, State.stringLoop chars m (turns chars k (a, s)).1 (turns chars k (a, s)).2 = none) →
      ∀ m, State.stringLoop chars m a s = none) := by
  induction k generalizing a s with
  | zero => rw [Nat.zero_add] at h; exact ⟨h, fun h => h⟩
  | succ k ih =>
    rw [show k + 1 + n = (k + n) + 1 by omega] at h
    simp only [State.stringLoop] at h
    split at h
    · cases h
    · next hz =>
      obtain ⟨h1, h2⟩ := ih h
      refine ⟨h1, fun hm m => ?_⟩
      cases m with
      | zero => rfl
      | succ m => simp only [State.stringLoop]; rw [if_neg hz]; exact h2 hm m

theorem stringLoop_read_ne_zero {n : Nat} {a : Word} {s : State} (h : State.stringLoop chars (n + 1) a s = none) :
    (s.memRead a).1 ≠ 0x0000#16 := by
  simp only [State.stringLoop] at h
  split at h
  · cases h
  · assumption

/-- A turn does not add to the characters left. -/
theorem turn_charsLeft (p : Word × State) : (turn chars p).2.console.charsLeft ≤ p.2.console.charsLeft :=
  p.2.memRead_charsLeft p.1

theorem turn_mem_plain (p : Word × State) {b : Word} (h1 : b ≠ Config.kbsrAddr) (h2 : b ≠ Config.kbdrAddr) :
    (turn chars p).2.mem.read b = p.2.mem.read b :=
  p.2.memRead_mem_plain p.1 h1 h2

/-- The schedule is used up and its tail supplies `b` at all times. -/
def Console.Supplies (b : Byte) (c : Console) : Prop := c.pending = [] ∧ c.arrivals = [] ∧ c.tail = some b

theorem Console.Supplies.tick {b : Byte} {c : Console} (h : c.Supplies b) : c.tick = c := by
  unfold Console.tick; rw [h.2.1]

theorem Console.Supplies.ready {b : Byte} {c : Console} (h : c.Supplies b) : c.tick.ready = true := by
  rw [h.tick]; simp [Console.ready, h.1, h.2.1, h.2.2]

theorem Console.Supplies.read {b : Byte} {c : Console} (h : c.Supplies b) : c.tick.read = some (b, c) := by
  rw [h.tick]
  obtain ⟨p, a, t, o⟩ := c
  obtain ⟨rfl, rfl, rfl⟩ := h
  rfl

theorem memRead_supplies {b : Byte} {s : State} (h : s.console.Supplies b) (a : Word) :
    (s.memRead a).2.console.Supplies b := by
  by_cases h1 : a = Config.kbsrAddr
  · subst h1; rw [State.memRead_kbsr, State.readKbsr_eq]; simpa [h.tick] using h
  by_cases h2 : a = Config.kbdrAddr
  · subst h2
    rw [State.memRead_kbdr]
    obtain ⟨_, _, -, hr, he⟩ | ⟨hn, he⟩ := s.readKbdr_cases
    · rw [he]; rw [h.read] at hr; cases hr; exact h
    · rw [h.ready] at hn; cases hn
  · rw [State.memRead_plain _ h1 h2]; exact h

theorem turn_supplies {b : Byte} (p : Word × State) (h : p.2.console.Supplies b) :
    (turn chars p).2.console.Supplies b := memRead_supplies h p.1

theorem kbsr_supplies {b : Byte} {s : State} (h : s.console.Supplies b) :
    (s.memRead Config.kbsrAddr).1 = 0x8000#16 := by
  simp [State.readKbsr_eq, h.ready]

theorem kbdr_supplies {b : Byte} {s : State} (h : s.console.Supplies b) :
    (s.memRead Config.kbdrAddr).1 = zext16 b := by
  rw [State.memRead_kbdr]
  obtain ⟨_, _, -, hr, he⟩ | ⟨hn, he⟩ := s.readKbdr_cases
  · rw [he]; rw [h.read] at hr; cases hr; rfl
  · rw [h.ready] at hn; cases hn

/-- Every cell non-zero and every character non-zero: the loop never ends. -/
theorem stringLoop_never_ends {b : Byte} (hb : zext16 b ≠ 0x0000#16) (n : Nat) {a : Word} {s : State}
    (hs : s.console.Supplies b)
    (hm : ∀ c, c ≠ Config.kbsrAddr → c ≠ Config.kbdrAddr → s.mem.read c ≠ 0x0000#16) :
    State.stringLoop chars n a s = none := by
  induction n generalizing a s with
  | zero => rfl
  | succ n ih =>
    have hz : (s.memRead a).1 ≠ 0x0000#16 := by
      by_cases h1 : a = Config.kbsrAddr
      · subst h1; rw [kbsr_supplies hs]; decide
      by_cases h2 : a = Config.kbdrAddr
      · subst h2; rw [kbdr_supplies hs]; exact hb
      · rw [State.memRead_plain _ h1 h2]; exact hm a h1 h2
    simp only [State.stringLoop]
    rw [if_neg hz]
    refine ih (turn_supplies (a, s) hs) fun c h1 h2 => ?_
    have := turn_mem_plain (chars := chars) (a, s) h1 h2
    simp only [turn] at this
    rw [this]
    exact hm c h1 h2

theorem add_ofNat_sub (a b : Word) : a + BitVec.ofNat 16 (b - a).toNat = b := by
  apply BitVec.eq_of_toNat_eq
  have := a.isLt
  have := b.isLt
  simp
  omega

/-- With the schedule used up, a turn round the whole address space without a zero word never ends. -/
theorem stringLoop_full_turn {b : Byte} {a : Word} {s : State} (hs : s.console.Supplies b) {n : Nat}
    (hn : Config.memWords ≤ n) (h : State.stringLoop chars n a s = none) :
    ∀ m, State.stringLoop chars m a s = none := by
  have seen : ∀ c : Word, ∃ s' : State, s'.console.Supplies b ∧
      (∀ x, x ≠ Config.kbsrAddr → x ≠ Config.kbdrAddr → s'.mem.read x = s.mem.read x) ∧
      (s'.memRead c).1 ≠ 0x0000#16 := by
    intro c
    have hk : (c - a).toNat < Config.memWords := (c - a).isLt
    obtain ⟨r, rfl⟩ : ∃ r, n = (c - a).toNat + (r + 1) := ⟨n - (c - a).toNat - 1, by omega⟩
    have hz := stringLoop_read_ne_zero (stringLoop_turns _ _ h).1
    rw [turns_fst, add_ofNat_sub] at hz
    exact ⟨(turns chars (c - a).toNat (a, s)).2,
      turns_keeps (P := fun u => u.console.Supplies b) turn_supplies _ _ hs,
      turns_keeps (P := fun u => ∀ x, x ≠ Config.kbsrAddr → x ≠ Config.kbdrAddr → u.mem.read x = s.mem.read x)
        (fun p hp x h1 h2 => (turn_mem_plain p h1 h2).trans (hp x h1 h2)) _ (a, s) (fun _ _ _ => rfl), hz⟩
  have hb : zext16 b ≠ 0x0000#16 := by
    obtain ⟨s', hs', -, hz⟩ := seen Config.kbdrAddr
    rwa [kbdr_supplies hs'] at hz
  refine fun m => stringLoop_never_ends hb m hs fun c h1 h2 => ?_
  obtain ⟨s', -, hm, hz⟩ := seen c
  rw [State.memRead_plain _ h1 h2] at hz
  rw [← hm c h1 h2]
  exact hz

/-- A turn round from 0xFE00 with a character pending consumes one. -/
theorem turns_consume {s : State} (hp : s.console.tick.pending ≠ []) {k : Nat} (hk : 3 ≤ k) :
    (turns chars k (Config.kbsrAddr, s)).2.console.charsLeft + 1 ≤ s.console.charsLeft := by
  obtain ⟨j, rfl⟩ : ∃ j, k = 2 + (1 + j) := ⟨k - 3, by omega⟩
  rw [turns_add, turns_add]
  have hc : ∃ bs, (turns chars 2 (Config.kbsrAddr, s)).2.console = (s.console.tick.write bs) := by
    simp only [turns, turn]
    rw [State.memRead_plain _ (show Config.kbsrAddr + 1 ≠ Config.kbsrAddr by decide)
      (show Config.kbsrAddr + 1 ≠ Config.kbdrAddr by decide)]
    simp only [State.memRead_kbsr, State.readKbsr_eq]
    refine ⟨chars (if s.console.tick.ready = true then 0x8000#16 else 0x0000#16) ++
      chars ((s.readKbsr).2.mem.read (Config.kbsrAddr + 1)), ?_⟩
    simp [State.readKbsr_eq, Console.write_write]
  have ha : (turns chars 2 (Config.kbsrAddr, s)).1 = Config.kbdrAddr := by
    rw [turns_fst]; show Config.kbsrAddr + 2#16 = _; decide
  generalize turns chars 2 (Config.kbsrAddr, s) = u at *
  obtain ⟨bs, hc⟩ := hc
  refine Nat.le_trans (Nat.add_le_add_right (turns_keeps (P := fun v => v.console.charsLeft ≤ (turn chars u).2.console.charsLeft)
    (fun p hp => Nat.le_trans (turn_charsLeft p) hp) j _ (Nat.le_refl _)) 1) ?_
  have hpu : u.2.console.tick.pending ≠ [] := by
    unfold Console.tick; split <;> simp [hc, hp]
  have hlu : u.2.console.tick.charsLeft = s.console.charsLeft := by
    rw [Console.tick_charsLeft, hc, Console.write_charsLeft, Console.tick_charsLeft]
  simp only [turn, ha, State.memRead_kbdr, State.writeChars_console, Console.write_charsLeft]
  obtain ⟨_, con, -, hrd, he⟩ | ⟨hn, he⟩ := u.2.readKbdr_cases
  · rw [he]
    simp only [State.memWrite_console, State.setConsole_console]
    have := Console.read_pending_charsLeft hpu hrd
    omega
  · simp [Console.ready, hpu] at hn

theorem fuel_turn (L n D : Nat) (h : (L + 1 + 1) * D + 1 ≤ D + n) : (L + 1) * D + 1 ≤ n := by
  rw [Nat.succ_mul (L + 1) D] at h
  generalize (L + 1) * D = x at *
  omega

theorem fuel_less (L n D : Nat) (h : (L + 1 + 1) * D + 1 ≤ n) : (L + 1) * D + 1 ≤ n := by
  rw [Nat.succ_mul (L + 1) D] at h
  generalize (L + 1) * D = x at *
  omega

/-- From 0xFE00, one whole turn for each character left and one more decide whether the loop ends. -/
theorem stringLoop_from_kbsr (L : Nat) {s : State} {n : Nat} (hL : s.console.charsLeft ≤ L)
    (hn : (L + 1) * Config.memWords + 1 ≤ n) (h : State.stringLoop chars n Config.kbsrAddr s = none) :
    ∀ m, State.stringLoop chars m Config.kbsrAddr s = none := by
  induction L generalizing s n with
  | zero =>
    obtain ⟨r, rfl⟩ : ∃ r, n = 1 + r := ⟨n - 1, by omega⟩
    obtain ⟨h1, h2⟩ := stringLoop_turns 1 r h
    have hr := State.kbsr_ready (stringLoop_read_ne_zero (n := r) (by rw [Nat.add_comm] at h; exact h))
    have h0 : s.console.tick.charsLeft = 0 := by rw [Console.tick_charsLeft]; omega
    have hp : s.console.tick.pending = [] := by simp [Console.charsLeft] at h0; exact h0.1
    simp [Console.ready, hp] at hr
    obtain ⟨b, hb⟩ := Option.isSome_iff_exists.mp hr.2
    refine h2 (stringLoop_full_turn (b := b) (n := r) ?_ (by omega) h1)
    refine ⟨?_, ?_, ?_⟩ <;> simp [turns, turn, State.readKbsr_eq, hp, hr.1, hb]
  | succ L ih =>
    by_cases hl : s.console.charsLeft ≤ L
    · exact ih hl (fuel_less L n _ hn) h
    obtain ⟨D, hD⟩ : ∃ D, D = Config.memWords := ⟨_, rfl⟩
    rw [← hD] at hn ih
    have hD3 : 3 ≤ D := by rw [hD]; decide
    obtain ⟨r, rfl⟩ : ∃ r, n = D + r := ⟨n - D, by rw [Nat.succ_mul] at hn; omega⟩
    obtain ⟨h1, h2⟩ := stringLoop_turns D r h
    have e : (turns chars D (Config.kbsrAddr, s)).1 = Config.kbsrAddr := by
      rw [turns_fst, hD]; show Config.kbsrAddr + 65536#16 = _; decide
    rw [e] at h1 h2
    have hr := State.kbsr_ready
      (stringLoop_read_ne_zero (n := D - 1 + r) (by rw [show D - 1 + r + 1 = D + r by omega]; exact h))
    have hp : s.console.tick.pending ≠ [] := by
      intro hp
      simp [Console.ready, hp] at hr
      have : s.console.tick.charsLeft = 0 := by simp [Console.charsLeft, hp, hr.1]
      rw [Console.tick_charsLeft] at this
      omega
    have := turns_consume (chars := chars) hp hD3
    exact h2 (ih (by omega) (fuel_turn L r D hn) h1)

/-- The bound of the string loop is exact: what it does not find in `stringFuel` words it never finds. -/
theorem stringLoop_fuel_exact {a : Word} {s : State} (h : State.stringLoop chars s.stringFuel a s = none) :
    ∀ m, State.stringLoop chars m a s = none := by
  have hk : (Config.kbsrAddr - a).toNat < Config.memWords := (Config.kbsrAddr - a).isLt
  obtain ⟨D, hD⟩ : ∃ D, D = Config.memWords := ⟨_, rfl⟩
  have hf : s.stringFuel = (s.console.charsLeft + 1) * D + D := by rw [hD, ← Nat.succ_mul]; rfl
  rw [← hD] at hk
  obtain ⟨r, hr⟩ : ∃ r, s.stringFuel = (Config.kbsrAddr - a).toNat + r :=
    ⟨s.stringFuel - (Config.kbsrAddr - a).toNat, by omega⟩
  rw [hr] at h
  obtain ⟨h1, h2⟩ := stringLoop_turns _ r h
  have e : (turns chars (Config.kbsrAddr - a).toNat (a, s)).1 = Config.kbsrAddr := by
    rw [turns_fst]; exact add_ofNat_sub a _
  rw [e] at h1 h2
  refine h2 (stringLoop_from_kbsr s.console.charsLeft ?_ (by rw [← hD]; omega) h1)
  exact turns_keeps (P := fun u => u.console.charsLeft ≤ s.console.charsLeft)
    (fun p hp => Nat.le_trans (turn_charsLeft p) hp) _ (a, s) (Nat.le_refl _)

end Sys2Proof.Machine
end

