-- ==== Sys2Proof/Tests/Slice0.lean ====
section
/-! SUPPORT. The model's own tests: expected results come from spec/95_test_vectors.md and the rules' examples, and the
encoded words from the bit strings of 30_encoding R45. A `witness_` theorem shows states and operands that meet the
hypotheses of the statement it names. -/

namespace Sys2Proof.Tests

open Sys2Proof.Machine Sys2Proof.Safety Sys2Proof.Spec

-- ## WellFormed: an ill-formed term for each check

theorem test_wf_jmp_r7_is_ret : Instr.wellFormed (.jmp 0 7 0) = false := by decide
theorem test_wf_jmp_r6 : Instr.wellFormed (.jmp 0 6 0) = true := by decide
theorem test_wf_trap_x20_is_getc : Instr.wellFormed (.trap 0 0x20) = false := by decide
theorem test_wf_trap_x21_is_out : Instr.wellFormed (.trap 0 0x21) = false := by decide
theorem test_wf_trap_x22_is_puts : Instr.wellFormed (.trap 0 0x22) = false := by decide
theorem test_wf_trap_x23_is_in : Instr.wellFormed (.trap 0 0x23) = false := by decide
theorem test_wf_trap_x24_is_putsp : Instr.wellFormed (.trap 0 0x24) = false := by decide
theorem test_wf_trap_x25_is_halt : Instr.wellFormed (.trap 0 0x25) = false := by decide
theorem test_wf_trap_x26 : Instr.wellFormed (.trap 0 0x26) = true := by decide

-- ## Decode: one word for each constructor, written out from R45

theorem test_decode_addReg : decode 0b0001_010_000_0_11_001#16 = .addReg 2 0 3 1 := by decide
theorem test_decode_addImm : decode 0b0001_000_001_1_11101#16 = .addImm 0 1 0b11101 := by decide
theorem test_decode_andReg : decode 0b0101_011_001_0_00_010#16 = .andReg 3 1 0 2 := by decide
theorem test_decode_andImm : decode 0b0101_001_010_1_10000#16 = .andImm 1 2 0b10000 := by decide
theorem test_decode_not : decode 0b1001_100_101_111111#16 = .not 4 5 0b111111 := by decide
theorem test_decode_br : decode 0b0000_1_0_0_111111011#16 = .br 0b100 0b111111011 := by decide
theorem test_decode_jmp : decode 0b1100_111_011_111110#16 = .jmp 7 3 0b111110 := by decide
theorem test_decode_ret : decode 0b1100_000_111_000000#16 = .ret 0 0 := by decide
theorem test_decode_jsr : decode 0b0100_1_10000000000#16 = .jsr 0b10000000000 := by decide
theorem test_decode_jsrr : decode 0b0100_0_11_010_000000#16 = .jsrr 3 2 0 := by decide
theorem test_decode_ld : decode 0b0010_001_000000101#16 = .ld 1 5 := by decide
theorem test_decode_ldi : decode 0b1010_010_000010000#16 = .ldi 2 16 := by decide
theorem test_decode_ldr : decode 0b0110_011_100_111110#16 = .ldr 3 4 0b111110 := by decide
theorem test_decode_lea : decode 0b1110_101_111111101#16 = .lea 5 0b111111101 := by decide
theorem test_decode_st : decode 0b0011_110_000000111#16 = .st 6 7 := by decide
theorem test_decode_sti : decode 0b1011_000_000000001#16 = .sti 0 1 := by decide
theorem test_decode_str : decode 0b0111_001_010_011111#16 = .str 1 2 31 := by decide
theorem test_decode_trap : decode 0b1111_0000_00100110#16 = .trap 0 0x26 := by decide
theorem test_decode_getc : decode 0b1111_0001_00100000#16 = .getc 1 := by decide
theorem test_decode_out : decode 0b1111_0000_00100001#16 = .out 0 := by decide
theorem test_decode_puts : decode 0b1111_0000_00100010#16 = .puts 0 := by decide
theorem test_decode_inp : decode 0b1111_0000_00100011#16 = .inp 0 := by decide
theorem test_decode_putsp : decode 0b1111_0000_00100100#16 = .putsp 0 := by decide
theorem test_decode_halt : decode 0b1111_1111_00100101#16 = .halt 0xF := by decide
theorem test_decode_reserved1000 : decode 0b1000_101010111100#16 = .reserved1000 0xABC := by decide
theorem test_decode_reserved1101 : decode 0b1101_000100100011#16 = .reserved1101 0x123 := by decide
theorem test_encode_ldr : encode (.ldr 3 4 0b111110) = 0x673E#16 := by decide
theorem test_encode_jsrr : encode (.jsrr 0 3 0) = 0x40C0#16 := by decide
theorem test_decodeTableWord_ret : decodeTableWord 16 0xC1C0 = some (.ret 0 0) := by decide

-- ## Helpers (95_test_vectors L2.1)

theorem test_sext5 : sext16 0x1F#5 = 0xFFFF#16 ∧ sext16 0x0F#5 = 0x000F#16 := by decide
theorem test_sext6 : sext16 0x20#6 = 0xFFE0#16 := by decide
theorem test_sext9 : sext16 0x100#9 = 0xFF00#16 := by decide
theorem test_sext11 : sext16 0x3FF#11 = 0x03FF#16 ∧ sext16 0x400#11 = 0xFC00#16 := by decide
theorem test_flags : flagsOf 0x0000 = 2 ∧ flagsOf 0x7FFF = 1 ∧ flagsOf 0x8000 = 4 ∧ flagsOf 0xFFFF = 4 := by decide

-- ## One step (95_test_vectors L2.3 to L2.7)

/-- The reset state, at whose console nothing ever arrives. -/
def quiet : State := State.reset.setConsole { State.reset.console with feed := none }

/-- The quiet state with `cond` = P, `pc` at `a`, and the word `w` there. -/
def starting (a w : Word) : State := ((quiet.setPc a).setCond 1).memWrite a w

/-- The state with those characters already at the console. -/
def State.typed (s : State) (bs : List Byte) : State := s.setConsole { s.console with pending := bs }

/-- What `f` sees of the next state. -/
def seen {α : Type} (o : Answer) (f : State → α) : Option α :=
  match o with
  | .next t => some (f t)
  | .fault _ => none
  | .refused _ => none

/-- R`r`, the flags and `pc`. -/
def regCondPc (r : Reg) (t : State) : Word × Word × Word := (t.getReg r, t.cond, t.pc)

theorem test_add_overflows_to_N :
    seen (step (((starting 0x3000 0x1401).setReg 0 0x7FFF).setReg 1 1)) (regCondPc 2) = some (0x8000, 4, 0x3001) := by
  decide
theorem test_add_same_register :
    seen (step ((starting 0x3000 0x16C3).setReg 3 0x4000)) (regCondPc 3) = some (0x8000, 4, 0x3001) := by decide
theorem test_add_imm_negative :
    seen (step ((starting 0x3000 0x107D).setReg 1 5)) (regCondPc 0) = some (2, 1, 0x3001) := by decide
theorem test_add_imm_minimum :
    seen (step ((starting 0x3000 0x1070).setReg 1 0x10)) (regCondPc 0) = some (0, 2, 0x3001) := by decide
theorem test_and_reg :
    seen (step (((starting 0x3000 0x5946).setReg 5 0xFF00).setReg 6 0x8F0F)) (regCondPc 4) =
      some (0x8F00, 4, 0x3001) := by decide
theorem test_and_imm_sign_extends :
    seen (step ((starting 0x3000 0x503F).setReg 0 0x8421)) (regCondPc 0) = some (0x8421, 4, 0x3001) := by decide
theorem test_not :
    seen (step ((starting 0x3000 0x92BF).setReg 2 0x8000)) (regCondPc 1) = some (0x7FFF, 1, 0x3001) := by decide
theorem test_br_not_taken : seen (step (starting 0x3000 0x0C05)) State.pc = some 0x3001 := by decide
theorem test_br_wraps_below : seen (step ((starting 0 0x09FE).setCond 4)) State.pc = some 0xFFFF := by decide
theorem test_jmp :
    seen (step ((starting 0x3000 0xCEFF).setReg 3 0xABCD)) State.pc = some 0xABCD := by decide
theorem test_ret : seen (step ((starting 0x3000 0xC1C0).setReg 7 0x3001)) State.pc = some 0x3001 := by decide
theorem test_jsr_wraps : seen (step (starting 0xFFFF 0x4800)) (regCondPc 7) = some (0, 1, 0) := by decide
theorem test_jsr_minimum : seen (step (starting 0x3000 0x4C00)) (regCondPc 7) = some (0x3001, 1, 0x2C01) := by decide
theorem test_jsrr_r7 :
    seen (step ((starting 0x3000 0x41C0).setReg 7 0x4444)) (regCondPc 7) = some (0x3001, 1, 0x4444) := by decide
theorem test_ld_wraps :
    seen (step ((starting 0 0x21FE).memWrite 0xFFFF 0x7000)) (regCondPc 0) = some (0x7000, 1, 1) := by decide
theorem test_ld_kbsr :
    seen (step (State.typed (starting 0xFDF0 0x220F) [0x61]))
      (fun t => (regCondPc 1 t, t.console.pending)) = some ((0x8000, 4, 0xFDF1), [0x61]) := by decide
theorem test_ldi_kbdr_consumes :
    seen (step (State.typed ((starting 0x3000 0xA401).memWrite 0x3002 0xFE02) [0x78]))
      (fun t => (regCondPc 2 t, t.console.pending)) = some ((0x78, 1, 0x3001), []) := by decide
theorem test_ld_empty_kbdr_draws :
    seen (step (starting 0xFDF0 0x2211)) (fun t => (t.getReg 1, t.draws)) = some (Config.kbdrEmpty 0, 1) := by rfl
theorem test_ldr_base_is_destination :
    seen (step (((starting 0x3000 0x66C0).setReg 3 0x4000).memWrite 0x4000 0x42)) (regCondPc 3) =
      some (0x42, 1, 0x3001) := by decide
theorem test_lea_reads_no_memory :
    seen (step (State.typed (starting 0xFD00 0xE0FF) [0x71])) (fun t => (regCondPc 0 t, t.console.pending)) =
      some ((0xFE00, 4, 0xFD01), [0x71]) := by decide
theorem test_st :
    seen (step ((starting 0x3000 0x3C07).setReg 6 0xBEEF)) (fun t => (t.mem.read 0x3008, t.cond)) =
      some (0xBEEF, 1) := by decide
theorem test_sti_pointer_at_kbdr :
    seen (step (State.typed ((starting 0xFDF0 0xB011).setReg 0 0x5A5A) [0x6B]))
      (fun t => (t.mem.read 0x6B, t.console.pending)) = some (0x5A5A, []) := by decide
theorem test_str_wraps :
    seen (step (((starting 0x3000 0x729F).setReg 1 0x5555).setReg 2 0xFFF0)) (fun t => t.mem.read 0x000F) =
      some 0x5555 := by decide
theorem test_getc_zero_extends :
    seen (step (State.typed (starting 0x3000 0xF020) [0xFF])) (regCondPc 0) = some (0x00FF, 1, 0x3001) := by decide
theorem test_getc_holds_until_arrival :
    seen (step ((starting 0x3000 0xF020).setConsole { quiet.console with arrivals := [[], [0x41, 0x42]] }))
      (fun t => (t.getReg 0, t.console.pending)) = some (0x41, [0x42]) := by decide
theorem test_out_ignores_high_byte :
    seen (step ((starting 0x3000 0xF021).setReg 0 0x1248)) (fun t => t.console.output) = some [0x48] := by decide
theorem test_puts_zero_low_byte_goes_on :
    seen (step ((((starting 0x3000 0xF022).setReg 0 0x4000).memWrite 0x4000 0x4100).memWrite 0x4001 0x42))
      (fun t => (t.console.output, t.getReg 0)) = some ([0x00, 0x42], 0x4000) := by decide
theorem test_puts_wraps :
    seen (step ((((starting 0x3000 0xF022).setReg 0 0xFFFF).memWrite 0xFFFF 0x41).memWrite 0 0x42))
      (fun t => t.console.output) = some [0x41, 0x42] := by decide
theorem test_putsp_odd_length :
    seen (step ((((starting 0x3000 0xF024).setReg 0 0x4000).memWrite 0x4000 0x6548).memWrite 0x4001 0x6C))
      (fun t => t.console.output) = some [0x48, 0x65, 0x6C] := by decide
theorem test_putsp_zero_low_byte :
    seen (step (((starting 0x3000 0xF024).setReg 0 0x4000).memWrite 0x4000 0x4100))
      (fun t => t.console.output) = some [0x00, 0x41] := by decide
theorem test_in_echoes :
    seen (step (State.typed (starting 0x3000 0xF023) [0x79, 0x7A]))
      (fun t => (t.getReg 0, t.console.pending, t.console.output)) =
      some (0x79, [0x7A], ([] ++ Config.inPrompt) ++ [0x79]) := by rfl
theorem test_halt :
    seen (step (starting 0x3000 0xFF25)) (fun t => (t.run, t.pc, t.console.output)) =
      some (.halted, 0x3001, [] ++ Config.haltNotice) := by rfl
theorem test_trap_unsupported :
    seen (step (starting 0x3000 0xF01F)) (fun t => (t.run, t.faultRecord, t.pc)) =
      some (.faulted, some ⟨.unsupportedTrap, 0xF01F, 0x3000⟩, 0x3001) := by decide
theorem test_reserved1000 :
    seen (step (starting 0x3000 0x8000)) (fun t => (t.run, t.faultRecord, t.pc)) =
      some (.faulted, some ⟨.reservedOpcode, 0x8000, 0x3000⟩, 0x3001) := by decide
theorem test_reserved1101_at_the_top :
    seen (step (starting 0xFFFF 0xD123)) (fun t => (t.faultRecord, t.pc)) =
      some (some ⟨.reservedOpcode, 0xD123, 0xFFFF⟩, 0) := by decide
theorem test_fetch_kbdr_consumes :
    seen (step (State.typed (quiet.setPc 0xFE02) [0x25])) (fun t => (t.pc, t.console.pending)) =
      some (0xFE03, []) := by decide
theorem test_fetch_kbsr_faults :
    seen (step (State.typed (quiet.setPc 0xFE00) [0x61])) (fun t => (t.faultRecord, t.console.pending)) =
      some (some ⟨.reservedOpcode, 0x8000, 0xFE00⟩, [0x61]) := by decide
theorem test_overlapping_images :
    (boot [[0x30, 0, 0x11, 0x11, 0x22, 0x22, 0x33, 0x33], [0x30, 1, 0xAA, 0xAA, 0xBB, 0xBB, 0xCC, 0xCC]]).map
      (fun s => (s.mem.read 0x3000, s.mem.read 0x3001, s.mem.read 0x3002, s.mem.read 0x3003)) =
      some (0x1111, 0xAAAA, 0xBBBB, 0xCCCC) := by decide
theorem test_withFetchWord :
    seen (step (State.reset.withFetchWord 16 0x1021)) (regCondPc 0) = some (1, 1, 0x3001) := by decide
theorem test_step_takes_its_input :
    seen (step (State.reset.withFetchWord 16 0x1021)) (fun t => (t.console.arrivals, t.console.tail, t.console.feed)) =
      some ([] ++ (Config.consoleInput 0).1, (Config.consoleInput 0).2, some 1) := by rfl
theorem test_seen_character_stays :
    Console.pending (Console.takeFeed { quiet.console with tail := some 0x41, feed := some 3 }) = [0x41] := by decide
theorem test_reset_wf : State.reset.mem.wf := by decide
theorem test_write_of_zero_removes :
    Memory.write (Memory.write [] 0x4000 7) 0x4000 0 = [] := by decide

-- ## Witnesses of the statements' hypotheses

/-- A running state at the word of ADD R0, R0, #1, one character pending. -/
def sample : State := State.typed (starting 0x3000 0x1021) [0x61]

theorem witness_DecodeOfEncode : Instr.wellFormed (.trap 5 0xFF) = true ∧ Instr.wellFormed (.jmp 1 6 2) = true := by
  decide

theorem witness_DontCareBitsIgnored :
    (0x1401#16 &&& ~~~dontCare 0x1401#16 = 0x1419#16 &&& ~~~dontCare 0x1401#16 ∧ opcode 0x1401#16 ≠ 0xF#4) ∧
    (0xF020#16 &&& ~~~dontCare 0xF020#16 = 0xFF20#16 &&& ~~~dontCare 0xF020#16 ∧ opcode 0xF020#16 = 0xF#4 ∧
      trapVectorSupported (field 0xF020#16 0 8) = true) := by decide

theorem witness_SignAndZeroExtension : (0 < 1 ∧ 1 ≤ 16) ∧ (0 < 16 ∧ 16 ≤ 16) := by decide

theorem witness_StepFetchesAdvancesAndExecutes : sample.run = .running := by decide

theorem witness_StepRunsTheEncodedInstruction :
    sample.run = .running ∧ Plain sample.pc ∧ Instr.wellFormed (.addImm 0 0 1) = true ∧
      sample.mem.read sample.pc = encode (.addImm 0 0 1) := by unfold Plain; decide

theorem witness_StoppedCoreTakesNoStep :
    sample.enterHalted.run = .halted ∧ (sample.raiseFault .reservedOpcode 0x8000).run = .faulted ∧
      sample.enterHalted.run ≠ .running := by decide

theorem witness_RunningStepsCompleteOrWait :
    sample.run = .running ∧ (starting 0x3000 0xF020).run = .running ∧
      canWait (decode (fetched (starting 0x3000 0xF020)).1) = true ∧
      ∃ held, step (starting 0x3000 0xF020) = .fault (.inputNeverArrives held) :=
  ⟨rfl, rfl, rfl, _, rfl⟩

theorem witness_StoredWordIsFetched :
    storeOf (.st 6 7) sample = some (0x3007, 0) ∧ Plain 0x3007 ∧ sample.mem.wf ∧
      (sample.setPc 0x3007).mem.read 0x3007 = sample.mem.read 0x3007 ∧ (sample.setPc 0x3007).run = .running ∧
      (sample.setPc 0x3007).pc = 0x3007 := by unfold Plain; decide

theorem witness_FlagsFollowTheDestination :
    (∃ t, exec (.ld 1 5) sample = .next t) ∧ flagSource (.ld 1 5) = some 1 ∧
      (∃ t, exec (.getc 0) sample = .next t) ∧ flagSource (.getc 0) = none :=
  ⟨⟨_, rfl⟩, rfl, ⟨_, rfl⟩, rfl⟩

theorem witness_OnlyNamedRegistersWritten :
    (∃ t, exec (.trap 0 0x20) sample = .next t) ∧ (7 : Reg) ∉ writes (.trap 0 0x20) := ⟨⟨_, rfl⟩, by decide⟩

theorem witness_OnlyControlTransfersMovePc :
    (∃ t, exec (.inp 0) sample = .next t) ∧ isControl (.inp 0) = false := ⟨⟨_, rfl⟩, rfl⟩

theorem witness_ReturnAfterCall :
    (∃ off11, Instr.jsr 4 = .jsr off11) ∧ (∃ t, exec (.jsr 4) sample = .next t ∧ t.getReg 7 = t.getReg 7) ∧
      (∃ x' base y', Instr.jsrr 0 7 0 = .jsrr x' base y') ∧ ∃ t, exec (.jsrr 0 7 0) sample = .next t :=
  ⟨⟨_, rfl⟩, ⟨_, rfl, rfl⟩, ⟨_, _, _, rfl⟩, _, rfl⟩

theorem witness_PlainReadReturnsTheCell : Plain 0xFDFF ∧ Plain 0xFE01 ∧ Plain 0xFE03 := by unfold Plain; decide

theorem witness_KbsrReadReportsAvailability :
    CharAvailable sample.console ∧ ¬CharAvailable State.reset.console ∧ sample.mem.wf :=
  ⟨.inl (by decide), by unfold CharAvailable; decide, by decide⟩

/-- The console whose schedule is over and whose tail supplies one character at all times. -/
def endless (b : Byte) : Console := { quiet.console with tail := some b }

theorem witness_KbdrReadConsumesOrDraws :
    arrived sample.console = 0x61 :: [] ∧
      (arrived (endless 7) = [] ∧ (endless 7).arrivals.drop 1 = [] ∧ (endless 7).tail = some 7) ∧
      ¬CharAvailable State.reset.console ∧ sample.mem.wf :=
  ⟨rfl, ⟨rfl, rfl, rfl⟩, by unfold CharAvailable; decide, by decide⟩

/-- A state at whose console one character is available at all times, by the tail alone, with open input to come. -/
def tailOnly : State := sample.setConsole { endless 7 with feed := some 0 }

/-- The two clauses: the character pending at the poll, and the tail's; two step starts lie between poll and read. -/
theorem witness_PollThenReadGetsTheCharacter :
    ((sample.memRead 0xFE00#16).1.getLsbD 15 = true ∧ (arrived sample.console).head? = some 0x61 ∧
      NothingConsumed (sample.memRead 0xFE00#16).2 (supplied (supplied (sample.memRead 0xFE00#16).2))) ∧
    ((tailOnly.memRead 0xFE00#16).1.getLsbD 15 = true ∧ arrived tailOnly.console = [] ∧ tailOnly.console.tail = some 7 ∧
      NothingConsumed (tailOnly.memRead 0xFE00#16).2 (supplied (supplied (tailOnly.memRead 0xFE00#16).2))) :=
  ⟨⟨by decide, by decide, .draw (.draw (.refl _))⟩, by decide, by decide, by decide, .draw (.draw (.refl _))⟩

/-- A character that only the tail supplied at the poll is read after the next step's input has replaced the tail. -/
theorem test_tail_character_survives_the_next_draw :
    ((supplied (tailOnly.memRead 0xFE00#16).2).console.pending, (supplied (tailOnly.memRead 0xFE00#16).2).console.feed) =
      ([7], some 1) := by decide

theorem witness_KeyboardCellsNeverObservable :
    sample.mem.wf ∧ (sample.memWrite 0xFE00 0x1234).mem.wf ∧ sample ≠ sample.memWrite 0xFE00 0x1234 ∧
      SameButKeyboardCells sample (sample.memWrite 0xFE00 0x1234) ∧ ∃ t, step sample = .next t :=
  ⟨by decide, by decide, fun h => absurd (congrArg State.mem h) (by decide),
    ⟨fun _ => rfl, rfl, rfl, ⟨rfl, rfl⟩, ⟨rfl, rfl⟩, fun _ h => Memory.read_write_ne _ _ h.1⟩, _, rfl⟩

theorem witness_OnlyStoresChangePlainCells :
    (∃ t, exec (.st 6 7) sample = .next t) ∧ Plain 0x3008 ∧ ∀ v, storeOf (.st 6 7) sample ≠ some (0x3008, v) := by
  refine ⟨⟨_, rfl⟩, by unfold Plain; decide, fun v h => ?_⟩
  have h1 : (0x3007 : Word) = 0x3008 := congrArg Prod.fst (Option.some.inj h)
  exact absurd h1 (by decide)

theorem witness_CanonicalMemoriesAreEqual :
    Memory.wf [(3, 1), (9, 5)] ∧ Memory.wf (Memory.write [(9, 5)] 3 1) ∧
      ∀ a, Memory.read [(3, 1), (9, 5)] a = (Memory.write [(9, 5)] 3 1).read a := ⟨by decide, by decide, fun _ => rfl⟩

theorem witness_Reads :
    Reads sample.console 0x61 { sample.console with pending := [] } ∧
      Reads { quiet.console with arrivals := [[], [0x41, 0x42], []] } 0x41
        { quiet.console with pending := [0x42], arrivals := [[]] } ∧
      Reads (endless 7) 7 (endless 7) :=
  ⟨.inl ⟨[], rfl, rfl⟩, .inr (.inl ⟨rfl, 1, [0x42], [[]], rfl, rfl⟩),
    .inr (.inr ⟨rfl, fun _ h => absurd h (List.not_mem_nil), rfl, rfl⟩)⟩

theorem witness_GetcReadsOneCharacter : Reads sample.console 0x61 { sample.console with pending := [] } :=
  witness_Reads.1

theorem witness_InPromptsReadsAndEchoes : Reads (endless 7) 7 (endless 7) := witness_Reads.2.2

theorem witness_GetcAndInHoldWithoutInput :
    State.reset.console.pending = [] ∧ (∀ batch ∈ State.reset.console.arrivals, batch = []) ∧
      State.reset.console.tail = none := by decide

/-- A string of two words at 0xFFFF, the second past the top of memory. -/
def wrapped : State := ((State.reset.setReg 0 0xFFFF).memWrite 0xFFFF 0x48).memWrite 0 0x4949

theorem witness_StringAt : StringAt wrapped (wrapped.getReg 0) [0x48, 0x4949] := by
  refine ⟨fun i hi => ?_, by unfold Plain; decide, by decide⟩
  match i with
  | 0 => exact ⟨by unfold Plain; decide, by decide, by decide⟩
  | 1 => exact ⟨by unfold Plain; decide, by decide, by decide⟩
  | n + 2 => simp at hi

theorem witness_PutsWritesTheString : StringAt wrapped (wrapped.getReg 0) [0x48, 0x4949] := witness_StringAt

theorem witness_PutspWritesThePackedString : StringAt wrapped (wrapped.getReg 0) [0x48, 0x4949] := witness_StringAt

theorem witness_UnsupportedTrapFaults :
    trapVectorSupported 0x00 = false ∧ trapVectorSupported 0x1F = false ∧ trapVectorSupported 0x26 = false ∧
      trapVectorSupported 0xFF = false := by decide

theorem witness_IllegalWordStepsToFaulted :
    ((starting 0x3000 0x8ABC).run = .running ∧
      causeOf (fetched (starting 0x3000 0x8ABC)).1 = some .reservedOpcode) ∧
    ((starting 0x3000 0xF026).run = .running ∧
      causeOf (fetched (starting 0x3000 0xF026)).1 = some .unsupportedTrap) := by decide

theorem witness_OnlyHaltHaltsAndOnlyIllegalFaults :
    sample.run = .running ∧ (∃ t, exec (.halt 0) sample = .next t) ∧ (∃ t, exec (.trap 0 0x26) sample = .next t) ∧
      ∃ t, exec (.trap 0 0x25) sample = .next t := ⟨rfl, ⟨_, rfl⟩, ⟨_, rfl⟩, _, rfl⟩

theorem witness_OutputIsAppendOnly :
    (∃ t, step sample = .next t) ∧ opcode (fetched sample).1 ≠ 0xF#4 ∧
      ∃ t, step (starting 0x3000 0xF025) = .next t := ⟨⟨_, rfl⟩, by decide, _, rfl⟩

theorem witness_StepKeepsInvariant : Inv sample ∧ ∃ t, step sample = .next t :=
  ⟨⟨by decide, .inl rfl, by decide, fun _ h => by cases h⟩, _, rfl⟩

theorem witness_NormalEndExactlyByHalt : Inv sample ∧ ∃ t, step sample = .next t := witness_StepKeepsInvariant

theorem witness_ImagesLoadInOrder :
    Memory.wf [(0x3001, 5)] ∧ Image.fits ⟨0xFFFF, [1]⟩ = true ∧ Image.fits ⟨0, []⟩ = true := by decide

theorem witness_LaunchedCoreIsReset : ∃ s, boot [[0x30, 0x00, 0xF0, 0x25]] = some s := ⟨_, rfl⟩

theorem witness_LoadFailureLaunchesNothing :
    ([0x30, 0x00, 0x11] : List Byte) ∈ [[0x30, 0x00], [0x30, 0x00, 0x11]] ∧
      ([0x30, 0x00, 0x11] : List Byte).length % 2 = 1 ∧ ([] : List Byte) ∈ [([] : List Byte)] := by decide

/-- The canonical form that the statements about stores (WriteSetsOneCell, StorePcRelative, StoreIndirect,
StoreBaseOffset) assume for the stored cell. -/
theorem witness_WriteSetsOneCell : Memory.wf [(0x3001, 5)] ∧ Memory.wf [] := by decide

end Sys2Proof.Tests
end

section
/-!
Sign and zero extension as R10's pseudocode computes them: a field with its top bit clear is only widened, one with its
top bit set has all higher bits set too.
-/

namespace Sys2Proof.Machine

theorem sext16_of_msb_false {w : Nat} {f : BitVec w} (h : f.msb = false) : sext16 f = f.setWidth 16 :=
  BitVec.signExtend_eq_setWidth_of_msb_false h

/-- The mask `0xFFFF <<< w` holds exactly the bits from `w` up, where the sign extension repeats the top bit. -/
theorem sext16_of_msb_true {w : Nat} {f : BitVec w} (h : f.msb = true) :
    sext16 f = f.setWidth 16 ||| (0xFFFF#16 <<< w) := by
  have hones : (0xFFFF#16 : Word) = BitVec.allOnes 16 := rfl
  ext i hi
  rw [sext16, BitVec.getElem_signExtend, BitVec.getElem_or, BitVec.getElem_shiftLeft, hones]
  by_cases hw : i < w
  · simp [hw]
  · simp only [hw, h, BitVec.getElem_allOnes, dite_false, decide_false, Bool.not_false, Bool.and_true, Bool.or_true]

theorem zext16_toNat (c : Byte) : (zext16 c).toNat = c.toNat :=
  BitVec.toNat_setWidth_of_le (by decide)

/-- Settles O5, by the field's top bit (R10); the bounds on the width are not needed. -/
theorem signAndZeroExtension : Obligations.SignAndZeroExtension := by
  refine ⟨fun w f _ _ => ?_, zext16_toNat⟩
  rw [← BitVec.msb_eq_getLsbD_last]
  split
  · next hset => exact sext16_of_msb_true hset
  · next hclear => exact sext16_of_msb_false (Bool.eq_false_iff.mpr hclear)

end Sys2Proof.Machine
end

section
/-!
What an instruction can leave, said once: the traffic with memory and console, then the instruction's ending, which is
all it writes to registers, `pc`, `cond`, run state and fault record (10_state R17 to R24).
-/

namespace Sys2Proof.Machine

open Sys2Proof.Spec

/-- From `s` to `t` only memory cells and the console have changed, by reads, stores and console operations; the output
grew by `bs`. -/
structure Traffic (s : State) (bs : List Byte) (t : State) : Prop where
  gpr : t.gpr = s.gpr
  pc : t.pc = s.pc
  cond : t.cond = s.cond
  run : t.run = s.run
  faultRecord : t.faultRecord = s.faultRecord
  wf : s.mem.wf → t.mem.wf
  output : t.console.output = s.console.output ++ bs

namespace Traffic

variable {s t u : State} {bs cs : List Byte}

theorem refl (s : State) : Traffic s [] s := ⟨rfl, rfl, rfl, rfl, rfl, id, by simp⟩

theorem trans (h : Traffic s bs t) (h' : Traffic t cs u) : Traffic s (bs ++ cs) u where
  gpr := h'.gpr.trans h.gpr
  pc := h'.pc.trans h.pc
  cond := h'.cond.trans h.cond
  run := h'.run.trans h.run
  faultRecord := h'.faultRecord.trans h.faultRecord
  wf := h'.wf ∘ h.wf
  output := by rw [h'.output, h.output, List.append_assoc]

theorem getReg (h : Traffic s bs t) (r : Reg) : t.getReg r = s.getReg r := by
  simp [State.getReg, h.gpr]

/-- Traffic that writes nothing to the console may follow. -/
theorem trans_silent (h : Traffic s bs t) (h' : Traffic t [] u) : Traffic s bs u := by
  simpa using h.trans h'

theorem memRead (h : Traffic s bs t) (a : Word) : Traffic s bs (t.memRead a).2 :=
  h.trans_silent ⟨by simp, by simp, by simp, by simp, by simp, fun hm => State.memRead_wf hm a, by simp⟩

theorem memWrite (h : Traffic s bs t) (a v : Word) : Traffic s bs (t.memWrite a v) :=
  h.trans_silent ⟨rfl, rfl, rfl, rfl, rfl, fun hm => Memory.wf_write hm a v, by simp⟩

theorem writeChars (h : Traffic s bs t) (cs : List Byte) : Traffic s (bs ++ cs) (t.writeChars cs) :=
  h.trans ⟨rfl, rfl, rfl, rfl, rfl, id, rfl⟩

theorem consoleRead (h : Traffic s bs t) {c : Byte} {con : Console} (hr : t.console.read = some (c, con)) :
    Traffic s bs (t.setConsole con) :=
  h.trans_silent ⟨rfl, rfl, rfl, rfl, rfl, id, by simp [(Console.read_output hr).1]⟩

end Traffic

/-- PUTS and PUTSP are traffic only (R73, R75). -/
theorem State.stringRoutine_traffic {s t : State} {chars : Word → List Byte} (h : s.stringRoutine chars = .next t) :
    ∃ bs, Traffic s bs t :=
  State.stringLoop_keeps (P := fun u => ∃ bs, Traffic s bs u)
    (fun _ a ⟨bs, hu⟩ => ⟨bs, hu.memRead a⟩) (fun _ cs ⟨bs, hu⟩ => ⟨bs ++ cs, hu.writeChars cs⟩)
    (State.stringRoutine_next h) ⟨[], .refl s⟩

/-- What an instruction does beyond its traffic with memory and console. -/
inductive Ending
  /-- the destination takes a value and the flags follow it (R19) -/
  | result (dr : Reg)
  /-- `pc` moves, or for BR may move (R58, R59) -/
  | jump
  /-- the link, then `pc` moves (R60, R61) -/
  | call
  /-- nothing, and nothing is written to the console -/
  | store
  /-- nothing, after characters may have been written -/
  | console
  /-- R0 takes a character (R71, R74) -/
  | input
  /-- the core stops (R76) -/
  | halt
  /-- the fault is taken (R78) -/
  | fault (cause : FaultCause)

namespace Ending

/-- The ending of TRAP by its vector (R50, R70). -/
def ofVector (vec : BitVec 8) : Ending :=
  if vec = 0x20#8 ∨ vec = 0x23#8 then input
  else if vec = 0x25#8 then halt
  else if trapVectorSupported vec then console
  else fault .unsupportedTrap

/-- The ending of each instruction. -/
def of : Instr → Ending
  | .addReg dr _ _ _ | .addImm dr _ _ | .andReg dr _ _ _ | .andImm dr _ _ | .not dr _ _ => result dr
  | .ld dr _ | .ldi dr _ | .ldr dr _ _ | .lea dr _ => result dr
  | .br _ _ | .jmp _ _ _ | .ret _ _ => jump
  | .jsr _ | .jsrr _ _ _ => call
  | .st _ _ | .sti _ _ | .str _ _ _ => store
  | .trap _ vec => ofVector vec
  | .out _ | .puts _ | .putsp _ => console
  | .getc _ | .inp _ => input
  | .halt _ => halt
  | .reserved1000 _ | .reserved1101 _ => fault .reservedOpcode

/-- The states that an instruction with this ending and the word `w` can leave, from `s`. -/
inductive Leads (w : Word) (s : State) : Ending → State → Prop
  | result {dr : Reg} {u : State} (hu : Traffic s [] u) (v : Word) : Leads w s (.result dr) (u.writeResult dr v)
  | jump (p : Word) : Leads w s .jump (s.setPc p)
  | call (p : Word) : Leads w s .call (s.call p)
  | store {u : State} (hu : Traffic s [] u) : Leads w s .store u
  | console {bs : List Byte} {u : State} (hu : Traffic s bs u) : Leads w s .console u
  | input {bs : List Byte} {u : State} (hu : Traffic s bs u) (v : Word) : Leads w s .input (u.setReg 0 v)
  | halt {bs : List Byte} {u : State} (hu : Traffic s bs u) : Leads w s .halt u.enterHalted
  | fault (cause : FaultCause) : Leads w s (.fault cause) (s.raiseFault cause w)

theorem Leads.getc {w : Word} {s t : State} (h : s.getcRoutine = .next t) : Leads w s .input t := by
  obtain ⟨c, con, hr, rfl⟩ := State.getcRoutine_next h
  exact .input ((Traffic.refl s).consoleRead hr) _

theorem Leads.inp {w : Word} {s t : State} (h : s.inRoutine = .next t) : Leads w s .input t := by
  obtain ⟨c, con, hr, rfl⟩ := State.inRoutine_next h
  exact .input ((((Traffic.refl s).writeChars _).consoleRead hr).writeChars [c]) _

theorem Leads.out {w : Word} {s t : State} (h : s.outRoutine = .next t) : Leads w s .console t := by
  obtain rfl := Host.Outcome.next.inj h
  exact .console ((Traffic.refl s).writeChars _)

theorem Leads.string {w : Word} {s t : State} {chars : Word → List Byte} (h : s.stringRoutine chars = .next t) :
    Leads w s .console t := by
  obtain ⟨bs, ht⟩ := State.stringRoutine_traffic h
  exact .console ht

theorem Leads.haltRoutine {w : Word} {s t : State} (h : s.haltRoutine = .next t) : Leads w s .halt t := by
  obtain rfl := Host.Outcome.next.inj h
  exact .halt ((Traffic.refl s).writeChars _)

theorem ofVector_of_unsupported {vec : BitVec 8} (h : trapVectorSupported vec = false) :
    ofVector vec = fault .unsupportedTrap := by
  obtain ⟨h20, -, -, h23, -, h25⟩ := trapVectorSupported_eq_false h
  simp [ofVector, h, h20, h23, h25]

theorem Leads.trap {x : BitVec 4} {vec : BitVec 8} {s t : State} (h : execTrap x vec s = .next t) :
    Leads (encode (.trap x vec)) s (ofVector vec) t := by
  obtain ⟨rfl, h⟩ | ⟨rfl, h⟩ | ⟨rfl, h⟩ | ⟨rfl, h⟩ | ⟨rfl, h⟩ | ⟨rfl, h⟩ | ⟨hv, rfl⟩ := execTrap_next h
  · exact .getc h
  · exact .out h
  · exact .string h
  · exact .inp h
  · exact .string h
  · exact .haltRoutine h
  · rw [ofVector_of_unsupported hv]
    exact .fault _

end Ending

/-- Whatever an instruction answers, its ending leads there. -/
theorem exec_leads {i : Instr} {s t : State} (h : exec i s = .next t) : Ending.Leads (encode i) s (.of i) t := by
  cases i with
  | addReg | addImm | andReg | andImm | not | lea =>
    obtain rfl := Host.Outcome.next.inj h
    exact .result (.refl s) _
  | ld | ldr =>
    obtain rfl := Host.Outcome.next.inj h
    exact .result ((Traffic.refl s).memRead _) _
  | ldi =>
    obtain rfl := Host.Outcome.next.inj h
    exact .result (((Traffic.refl s).memRead _).memRead _) _
  | br nzp off9 =>
    obtain rfl := Host.Outcome.next.inj h
    split
    · exact .jump _
    · exact .jump s.pc
  | jmp | ret =>
    obtain rfl := Host.Outcome.next.inj h
    exact .jump _
  | jsr | jsrr =>
    obtain rfl := Host.Outcome.next.inj h
    exact .call _
  | st | str =>
    obtain rfl := Host.Outcome.next.inj h
    exact .store ((Traffic.refl s).memWrite _ _)
  | sti =>
    obtain rfl := Host.Outcome.next.inj h
    exact .store (((Traffic.refl s).memRead _).memWrite _ _)
  | trap => exact .trap h
  | getc => exact .getc h
  | out => exact .out h
  | puts | putsp => exact .string h
  | inp => exact .inp h
  | halt => exact .haltRoutine h
  | reserved1000 | reserved1101 =>
    obtain rfl := Host.Outcome.next.inj h
    exact .fault _

end Sys2Proof.Machine
end

section
/-!
The classes of R17, R19, R20 and R21 in terms of the endings, and the statements that follow: which instructions write
`cond`, a register, `pc` and the run state, and the invariant of a step.
-/

namespace Sys2Proof.Machine

open Sys2Proof.Safety Sys2Proof.Spec

/-- The three ranges of a value: zero, bit 15 set, neither (R19). -/
theorem flagsOf_cases (v : Word) :
    (v = 0#16 ∧ flagsOf v = 0x0002#16) ∨
    ((v == 0#16) = false ∧ v.getLsbD 15 = true ∧ flagsOf v = 0x0004#16) ∨
    ((v == 0#16) = false ∧ v.getLsbD 15 = false ∧ flagsOf v = 0x0001#16) := by
  by_cases hz : v = 0#16
  · exact .inl ⟨hz, if_pos hz⟩
  · have hne : (v == 0#16) = false := beq_eq_false_iff_ne.mpr hz
    cases hn : v.getLsbD 15 with
    | true => exact .inr (.inl ⟨hne, rfl, (if_neg hz).trans (if_pos hn)⟩)
    | false => exact .inr (.inr ⟨hne, rfl, (if_neg hz).trans (if_neg (Bool.eq_false_iff.mp hn))⟩)

theorem flagsOf_oneHot (v : Word) : CondOneHot (flagsOf v) := by
  obtain ⟨-, h⟩ | ⟨-, -, h⟩ | ⟨-, -, h⟩ := flagsOf_cases v <;> simp [CondOneHot, h]

theorem faultRecordSound_of_none {s : State} (hr : s.run ≠ .faulted) (hn : s.faultRecord = none) : FaultRecordSound s :=
  ⟨by simp [hr, hn], fun r h => by simp [hn] at h⟩

/-- The record of a fault is true where the word raises the cause (R78). -/
theorem State.raiseFault_recordSound (s : State) {cause : FaultCause} {w : Word} (hw : causeOf w = some cause) :
    FaultRecordSound (s.raiseFault cause w) := by
  refine ⟨by simp, fun r h => ?_⟩
  obtain rfl := Option.some.inj h
  exact ⟨hw, (BitVec.sub_add_cancel s.pc 1).symm⟩

namespace Ending

/-- The registers an ending may write (R21). -/
def dests : Ending → List Reg
  | result dr => [dr]
  | call => [7]
  | input => [0]
  | _ => []

/-- The register that an ending makes the flags follow (R19). -/
def flagReg : Ending → Option Reg
  | result dr => some dr
  | _ => none

/-- Whether an ending may move `pc` (R17). -/
def movesPc : Ending → Bool
  | jump | call => true
  | _ => false

/-- Whether the core stops for good (R76). -/
def isHalt : Ending → Bool
  | halt => true
  | _ => false

/-- Whether a fault is taken (R79). -/
def isFault : Ending → Bool
  | fault _ => true
  | _ => false

/-- Whether an ending may follow characters written to the console (R86). -/
def talks : Ending → Bool
  | console | input | halt => true
  | _ => false

/-- What an ending leaves in the run state. -/
def runAfter : Ending → RunState → RunState
  | halt, _ => .halted
  | fault _, _ => .faulted
  | _, r => r

theorem dests_of (i : Instr) : (of i).dests = writes i := by
  cases i with
  | trap x vec =>
    simp only [of, ofVector, writes]
    split_ifs <;> rfl
  | _ => rfl

theorem flagReg_of (i : Instr) : (of i).flagReg = flagSource i := by
  cases i with
  | trap x vec =>
    simp only [of, ofVector, flagSource]
    split_ifs <;> rfl
  | _ => rfl

theorem movesPc_of (i : Instr) : (of i).movesPc = isControl i := by
  cases i with
  | trap x vec =>
    simp only [of, ofVector, isControl]
    split_ifs <;> rfl
  | _ => rfl

theorem isHalt_of (i : Instr) : (of i).isHalt = Spec.isHalt i := by
  cases i with
  | trap x vec =>
    simp only [of, ofVector, Spec.isHalt]
    split_ifs with hin hhalt hsup
    · rcases hin with rfl | rfl <;> rfl
    · rw [hhalt]; rfl
    · exact (beq_eq_false_iff_ne.mpr hhalt).symm
    · exact (beq_eq_false_iff_ne.mpr hhalt).symm
  | _ => rfl

theorem isFault_of (i : Instr) : (of i).isFault = isIllegal i := by
  cases i with
  | trap x vec =>
    cases hv : trapVectorSupported vec with
    | false => simp [of, ofVector_of_unsupported hv, isIllegal, isFault, hv]
    | true =>
      simp only [of, ofVector, isIllegal, hv]
      split_ifs <;> rfl
  | _ => rfl

variable {w : Word} {s t : State} {e : Ending}

theorem Leads.cond (h : e.Leads w s t) :
    t.cond = match e.flagReg with
      | some dr => flagsOf (t.getReg dr)
      | none => s.cond := by
  cases h with
  | result hu v => simp [flagReg]
  | jump | call | fault => rfl
  | store hu | console hu | input hu | halt hu => exact hu.cond

theorem Leads.getReg (h : e.Leads w s t) {r : Reg} (hr : r ∉ e.dests) : t.getReg r = s.getReg r := by
  cases h with
  | result hu v => rw [State.getReg_writeResult_ne _ _ (by simpa [dests] using hr), hu.getReg]
  | call p => exact State.getReg_call_ne _ _ (by simpa [dests] using hr)
  | input hu v => rw [State.getReg_setReg_ne _ _ (by simpa [dests] using hr), hu.getReg]
  | jump | fault => rfl
  | store hu | console hu | halt hu => exact hu.getReg r

theorem Leads.pc (h : e.Leads w s t) (he : e.movesPc = false) : t.pc = s.pc := by
  cases h with
  | jump | call => cases he
  | fault => rfl
  | result hu | store hu | console hu | input hu | halt hu => exact hu.pc

theorem Leads.run (h : e.Leads w s t) : t.run = e.runAfter s.run := by
  cases h with
  | jump | call | halt | fault => rfl
  | result hu | store hu | console hu | input hu => exact hu.run

theorem Leads.output (h : e.Leads w s t) :
    ∃ bs, t.console.output = s.console.output ++ bs ∧ (e.talks = false → bs = []) := by
  cases h with
  | jump | call | fault => exact ⟨[], by simp, fun _ => rfl⟩
  | result hu | store hu => exact ⟨[], hu.output, fun _ => rfl⟩
  | console hu | input hu | halt hu => exact ⟨_, hu.output, nofun⟩

theorem Leads.wf (h : e.Leads w s t) (hs : s.mem.wf) : t.mem.wf := by
  cases h with
  | jump | call | fault => exact hs
  | result hu | store hu | console hu | input hu | halt hu => exact hu.wf hs

theorem Leads.condOneHot (h : e.Leads w s t) (hs : CondOneHot s.cond) : CondOneHot t.cond := by
  rw [h.cond]
  split
  · exact flagsOf_oneHot _
  · exact hs

theorem Leads.faultRecord (h : e.Leads w s t) (he : e.isFault = false) : t.faultRecord = s.faultRecord := by
  cases h with
  | fault => cases he
  | jump | call => rfl
  | result hu | store hu | console hu | input hu | halt hu => exact hu.faultRecord

/-- A running core leaves FAULTED's record true, provided the word of a fault raises its cause (R78, R79). -/
theorem Leads.faultRecordSound (h : e.Leads w s t) (hrun : s.run = .running) (hnone : s.faultRecord = none)
    (hw : ∀ cause, e = Ending.fault cause → causeOf w = some cause) : FaultRecordSound t := by
  cases h with
  | fault cause => exact s.raiseFault_recordSound (hw cause rfl)
  | jump | call => exact faultRecordSound_of_none (by simp [hrun]) hnone
  | result hu | store hu | console hu | input hu =>
    exact faultRecordSound_of_none (by simp [hu.run, hrun]) (hu.faultRecord.trans hnone)
  | halt hu => exact faultRecordSound_of_none (by simp) (hu.faultRecord.trans hnone)

end Ending

end Sys2Proof.Machine
end

section
/-!
What the encoding says of an instruction's ending: decoding gives a well-formed instruction back (30_encoding R45), the
word of an illegal instruction raises its cause (R49, R50), and only TRAP's opcode reaches the console (R70).
-/

namespace Sys2Proof

open Sys2Proof.Machine Sys2Proof.Safety Sys2Proof.Spec

theorem decodeTrap_of_unsupported {vec : BitVec 8} (h : trapVectorSupported vec = false) (x : BitVec 4) :
    decodeTrap x vec = .trap x vec := by
  obtain ⟨h20, h21, h22, h23, h24, h25⟩ := trapVectorSupported_eq_false h
  simp only [decodeTrap, h20, h21, h22, h23, h24, h25, if_false]

theorem decode_encode {i : Instr} (h : i.wellFormed = true) : decode (encode i) = i := by
  cases i <;> simp (disch := decide) only [encode, decode, opcode, field, BitVec.extractLsb'_append_eq_of_le,
    BitVec.extractLsb'_append_eq_of_add_le, BitVec.extractLsb'_eq_self, Nat.reduceSub, BitVec.reduceEq, regOf_regBits,
    if_true, if_false]
  case jmp => exact if_neg (by simpa [Instr.wellFormed] using h)
  case trap => exact decodeTrap_of_unsupported (by simpa [Instr.wellFormed] using h) _
  all_goals rfl

/-- The opcode field of a word written as opcode and rest. -/
theorem opcode_append (o : BitVec 4) (x : BitVec 12) : opcode (o ++ x) = o := by
  unfold opcode field
  rw [BitVec.extractLsb'_append_eq_of_le (by decide)]
  exact BitVec.extractLsb'_eq_self

theorem causeOf_reserved1000 (x : BitVec 12) : causeOf (encode (.reserved1000 x)) = some .reservedOpcode :=
  if_pos (.inl (opcode_append _ _))

theorem causeOf_reserved1101 (x : BitVec 12) : causeOf (encode (.reserved1101 x)) = some .reservedOpcode :=
  if_pos (.inr (opcode_append _ _))

theorem causeOf_trap (x : BitVec 4) {vec : BitVec 8} (h : trapVectorSupported vec = false) :
    causeOf (encode (.trap x vec)) = some .unsupportedTrap := by
  have hop : opcode (encode (.trap x vec)) = 0xF#4 := by
    simp (disch := decide) only [encode, opcode, field, BitVec.extractLsb'_append_eq_of_le, BitVec.extractLsb'_eq_self,
      Nat.reduceSub]
  have hvec : field (encode (.trap x vec)) 0 8 = vec := by
    simp (disch := decide) only [encode, field, BitVec.extractLsb'_append_eq_of_add_le, BitVec.extractLsb'_eq_self]
  simp [causeOf, hop, hvec, h]

/-- The word of an instruction that takes a fault raises its cause (R79). -/
theorem causeOf_encode {i : Instr} {cause : FaultCause} (h : Ending.of i = .fault cause) :
    causeOf (encode i) = some cause := by
  cases i with
  | reserved1000 x => cases h; exact causeOf_reserved1000 x
  | reserved1101 x => cases h; exact causeOf_reserved1101 x
  | trap x vec =>
    simp only [Ending.of, Ending.ofVector] at h
    split_ifs at h with hin hhalt hsup
    cases h
    exact causeOf_trap x (Bool.eq_false_iff.mpr hsup)
  | _ => cases h

theorem silent_ite {c : Prop} [Decidable c] {i j : Instr} (hi : (Ending.of i).talks = false)
    (hj : ¬c → (Ending.of j).talks = false) : (Ending.of (if c then i else j)).talks = false := by
  split
  · exact hi
  · exact hj ‹_›

/-- Only the words of TRAP reach the console; `decode` leaves its last branch to them, the other fifteen opcodes being
taken (R44, R70). -/
theorem decode_silent {w : Word} (h : opcode w ≠ 0xF#4) : (Ending.of (decode w)).talks = false := by
  unfold decode
  generalize opcode w = o at *
  refine silent_ite rfl fun h0 => silent_ite (silent_ite rfl fun _ => rfl) fun h1 => silent_ite rfl fun h2 =>
    silent_ite rfl fun h3 => silent_ite (silent_ite rfl fun _ => rfl) fun h4 =>
    silent_ite (silent_ite rfl fun _ => rfl) fun h5 => silent_ite rfl fun h6 => silent_ite rfl fun h7 =>
    silent_ite rfl fun h8 => silent_ite rfl fun h9 => silent_ite rfl fun hA => silent_ite rfl fun hB =>
    silent_ite (silent_ite rfl fun _ => rfl) fun hC => silent_ite rfl fun hD => silent_ite rfl fun hE => ?_
  bv_omega

end Sys2Proof
end

section
/-!
The statements about the machine's state (10_state).
-/

namespace Sys2Proof.Machine

open Sys2Proof.Safety Sys2Proof.Spec

/-- The flag word that the model computes by bit 15 is the one the rule computes by value (R19). -/
theorem flagsOf_eq_flagWord (v : Word) : flagsOf v = flagWord v := by
  have hbit : v.getLsbD 15 = decide (0x8000 ≤ v.toNat) := v.msb_eq_decide
  simp only [flagsOf, flagWord, hbit, decide_eq_true_eq]

theorem supplied_eq_takeFeed (s : State) : supplied s = s.takeFeed := by
  unfold supplied
  split
  · next h => simp [State.takeFeed, State.setConsole, Console.takeFeed_none h]
  · next n h => simp [State.takeFeed, State.setConsole, Console.takeFeed_some h, Console.standing]

/-- The state in which a step executes, in the words of the statements. -/
theorem takeFeed_fetch (s : State) : s.takeFeed.fetch = ((fetched s).1, (fetched s).2.setPc (s.pc + 1)) := by
  rw [fetched, supplied_eq_takeFeed]
  rfl

theorem step_of_running {s : State} (h : s.run = .running) :
    step s = exec (decode (fetched s).1) ((fetched s).2.setPc (s.pc + 1)) := by
  simp only [step, h, takeFeed_fetch]

/-- The fetch is traffic that writes nothing to the console. -/
theorem fetched_traffic (s : State) : Traffic s [] (fetched s).2 := by
  rw [fetched, supplied_eq_takeFeed]
  have hfeed : Traffic s [] s.takeFeed := ⟨rfl, rfl, rfl, rfl, rfl, id, by simp⟩
  exact hfeed.memRead s.pc

/-- What a step can do: from RUNNING, the ending of the fetched instruction leads on from the fetch's state. -/
theorem step_leads {s t : State} (h : step s = .next t) :
    s.run = .running ∧
      (Ending.of (decode (fetched s).1)).Leads (encode (decode (fetched s).1)) ((fetched s).2.setPc (s.pc + 1)) t := by
  obtain ⟨hrun, -⟩ := step_next h
  exact ⟨hrun, exec_leads (step_of_running hrun ▸ h)⟩

/-- Settles O57: a running core has no fault record, the fetch keeps the rest, and so does every ending. -/
theorem stepKeepsInvariant : Obligations.StepKeepsInvariant := by
  rintro s t ⟨hwf, hcond, hiff, -⟩ hstep
  obtain ⟨hrun, hleads⟩ := step_leads hstep
  have hfetch := fetched_traffic s
  have hnone : s.faultRecord = none := by simpa [hrun] using hiff
  refine ⟨hleads.wf (hfetch.wf hwf), hleads.condOneHot ?_, hleads.faultRecordSound ?_ ?_ fun _ => causeOf_encode⟩
  · exact hfetch.cond ▸ hcond
  · exact hfetch.run.trans hrun
  · exact hfetch.faultRecord.trans hnone

/-- Settles O12: only the ending `result` sets the flags. -/
theorem flagsFollowTheDestination : Obligations.FlagsFollowTheDestination := by
  intro i s t h
  have hcond := (exec_leads h).cond
  rw [Ending.flagReg_of] at hcond
  cases hi : flagSource i with
  | some dr => simpa only [hi, flagsOf_eq_flagWord] using hcond
  | none => simpa only [hi] using hcond

/-- Settles O13: an ending writes its own registers only. -/
theorem onlyNamedRegistersWritten : Obligations.OnlyNamedRegistersWritten := by
  intro i s t r h hr
  exact (exec_leads h).getReg (by rwa [Ending.dests_of])

/-- Settles O14: only the endings `jump` and `call` move `pc`. -/
theorem onlyControlTransfersMovePc : Obligations.OnlyControlTransfersMovePc := by
  intro i s t h hi
  exact (exec_leads h).pc (by rwa [Ending.movesPc_of])

/-- Settles O52: the run state after each ending, from RUNNING. -/
theorem onlyHaltHaltsAndOnlyIllegalFaults : Obligations.OnlyHaltHaltsAndOnlyIllegalFaults := by
  intro i s t h hrun
  rw [(exec_leads h).run, hrun, ← Ending.isHalt_of, ← Ending.isFault_of]
  cases Ending.of i <;> simp [Ending.runAfter, Ending.isHalt, Ending.isFault]

/-- Settles O54: the fetch writes nothing, an ending only appends, and only after TRAP's opcode. -/
theorem outputIsAppendOnly : Obligations.OutputIsAppendOnly := by
  intro s t hstep
  obtain ⟨-, hleads⟩ := step_leads hstep
  obtain ⟨bs, hout, hquiet⟩ := hleads.output
  refine ⟨bs, ?_, fun hop => hquiet (decode_silent hop)⟩
  simpa [(fetched_traffic s).output] using hout

/-- Settles O6: the state that the statement writes as `supplied s` is the one the step draws its input into. -/
theorem stepFetchesAdvancesAndExecutes : Obligations.StepFetchesAdvancesAndExecutes :=
  fun _ => step_of_running

/-- Settles O7: a read of a plain `pc` gives the cell, and the decoder inverts the encoder. -/
theorem stepRunsTheEncodedInstruction : Obligations.StepRunsTheEncodedInstruction := by
  intro s i hrun hplain hi hcell
  have hfetch : fetched s = (encode i, supplied s) := by
    rw [fetched, State.memRead_plain _ hplain.1 hplain.2, supplied_eq_takeFeed, State.takeFeed_mem, hcell]
  rw [step_of_running hrun, hfetch, decode_encode hi]
  rfl

/-- Settles O8, by the run state. -/
theorem stoppedCoreTakesNoStep : Obligations.StoppedCoreTakesNoStep := by
  refine fun s => ⟨fun h => ?_, fun h => ?_, fun h t ht => h (step_next ht).1⟩
  · simp only [step, h]
  · simp only [step, h]

/-- Settles O11, by the three ranges of the value (R19). -/
theorem updateFlagsSetsExactlyOne : Obligations.UpdateFlagsSetsExactlyOne := by
  intro s v
  have hbits : (s.updateFlags v).flagZ = (v == 0#16) ∧ (s.updateFlags v).flagN = v.getLsbD 15 ∧
      (s.updateFlags v).flagP = (v != 0#16 && !v.getLsbD 15) := by
    simp only [State.flagZ, State.flagN, State.flagP, State.updateFlags_cond, bne]
    obtain ⟨rfl, hf⟩ | ⟨hz, hn, hf⟩ | ⟨hz, hn, hf⟩ := flagsOf_cases v
    · decide
    · rw [hf, hz, hn]; decide
    · rw [hf, hz, hn]; decide
  obtain ⟨hflagZ, hflagN, hflagP⟩ := hbits
  exact ⟨flagsOf_eq_flagWord v, flagsOf_oneHot v, hflagZ, hflagN, hflagP, fun _ => rfl, rfl, ⟨rfl, rfl⟩, fun _ => rfl,
    rfl, rfl⟩

end Sys2Proof.Machine
end

section
/-!
The read path and the write path in the words of the statements (20_memory R29 to R33): what a plain read answers, what
any read and any write leave unchanged, and that a memory in canonical form is determined by what it reads as.
-/

namespace Sys2Proof.Machine

open Sys2Proof.Spec

/-- Settles O25, by the read path's last branch. -/
theorem plainReadReturnsTheCell : Obligations.PlainReadReturnsTheCell :=
  fun s _ hplain => s.memRead_plain hplain.1 hplain.2

/-- What any read leaves unchanged. -/
theorem State.memRead_readDone (s : State) (a : Word) : ReadDone s a (s.memRead a).2 :=
  ⟨fun hplain => by rw [State.memRead_plain _ hplain.1 hplain.2], fun _ hb => s.memRead_mem_ne hb,
    s.getReg_memRead a, s.memRead_cond a, s.memRead_pc a, ⟨s.memRead_run a, s.memRead_faultRecord a⟩,
    s.memRead_output a⟩

/-- What any write leaves. -/
theorem State.memWrite_storeDone (s : State) (a v : Word) : StoreDone s a v (s.memWrite a v) :=
  ⟨fun hwf => Memory.read_write_self hwf a v, fun _ hb => Memory.read_write_ne _ v hb, s.getReg_memWrite a v, rfl, rfl,
    ⟨rfl, rfl⟩, rfl, rfl⟩

/-- Settles O29, by the memory's read-after-write laws. -/
theorem writeSetsOneCell : Obligations.WriteSetsOneCell := State.memWrite_storeDone

/-- In canonical form a listed cell reads as its entry. -/
theorem Memory.lookup_of_mem {m : Memory} (hm : m.wf) {c : Nat × Word} (hc : c ∈ m) : m.lookup c.1 = c.2 := by
  induction m with
  | nil => cases hc
  | cons d rest ih =>
    rcases List.mem_cons.mp hc with rfl | hrest
    · exact if_pos rfl
    · have hlt : d.1 < c.1 := Memory.wf_head_lt hm c hrest
      exact (if_neg hlt.ne).trans (ih (Memory.wf_tail hm) hrest)

/-- A cell that reads as something else than an unlisted one is listed. -/
theorem Memory.mem_of_lookup_ne {m : Memory} {k : Nat} (h : m.lookup k ≠ Memory.unlisted) : (k, m.lookup k) ∈ m := by
  induction m with
  | nil => exact absurd rfl h
  | cons d rest ih =>
    obtain ⟨j, u⟩ := d
    by_cases hjk : j = k
    · simp [Memory.lookup, hjk]
    · simp only [Memory.lookup, if_neg hjk] at h ⊢
      exact List.mem_cons_of_mem _ (ih h)

/-- In canonical form the entries are the cells that read as something else than an unlisted one. -/
theorem Memory.mem_iff_lookup {m : Memory} (hm : m.wf) (c : Nat × Word) :
    c ∈ m ↔ m.lookup c.1 = c.2 ∧ c.2 ≠ Memory.unlisted := by
  refine ⟨fun hc => ⟨Memory.lookup_of_mem hm hc, (hm.2 c hc).2⟩, fun ⟨hread, hne⟩ => ?_⟩
  have hmem := Memory.mem_of_lookup_ne (hread ▸ hne)
  rwa [hread] at hmem

/-- A canonical memory lists no cell past the last address. -/
theorem Memory.lookup_out_of_range {m : Memory} (hm : m.wf) {k : Nat} (hk : Config.memWords ≤ k) :
    m.lookup k = Memory.unlisted := by
  by_contra hne
  exact Nat.not_lt.mpr hk (hm.2 _ (Memory.mem_of_lookup_ne hne)).1

theorem Memory.lookup_eq_of_read_eq {m n : Memory} (hm : m.wf) (hn : n.wf) (h : ∀ a, m.read a = n.read a) (k : Nat) :
    m.lookup k = n.lookup k := by
  by_cases hk : k < Config.memWords
  · have hread := h (BitVec.ofNat 16 k)
    rwa [Memory.read, Memory.read, show (BitVec.ofNat 16 k).toNat = k from Nat.mod_eq_of_lt hk] at hread
  · rw [Memory.lookup_out_of_range hm (Nat.not_lt.mp hk), Memory.lookup_out_of_range hn (Nat.not_lt.mp hk)]

/-- Settles O32: the same cells are listed, and a strictly rising list is determined by its entries. -/
theorem canonicalMemoriesAreEqual : Obligations.CanonicalMemoriesAreEqual := by
  intro m n hm hn hread
  have hmem : ∀ c, c ∈ m ↔ c ∈ n := fun c => by
    rw [Memory.mem_iff_lookup hm, Memory.mem_iff_lookup hn, Memory.lookup_eq_of_read_eq hm hn hread]
  have hnodup : ∀ {l : Memory}, l.wf → l.Nodup := fun hl => hl.1.imp fun hlt heq => (heq ▸ hlt).false
  exact ((List.perm_ext_iff_of_nodup (hnodup hm) (hnodup hn)).mpr hmem).eq_of_pairwise
    (fun _ _ _ _ hcd hdc => absurd hdc hcd.asymm) hm.1 hn.1

end Sys2Proof.Machine
end

section
/-!
The two keyboard cells (20_memory R31, R32): the console query in the words of the statements, what a read of 0xFE00
and of 0xFE02 answers and leaves, and that a character once seen stays until it is read.
-/

namespace Sys2Proof.Machine

open Sys2Proof.Spec

/-- The query in the words of the statements. -/
theorem Console.tick_eq_queried (c : Console) : c.tick = queried c := by
  obtain ⟨pending, arrivals, tail, feed, output⟩ := c
  cases arrivals with
  | nil => simp [Console.tick, queried, arrived]
  | cons batch rest => rfl

theorem Console.tick_ready_iff (c : Console) : c.tick.ready = true ↔ CharAvailable c := by
  simp [Console.tick_eq_queried, queried, Console.ready, CharAvailable, Option.isSome_iff_ne_none]

theorem Console.read_of_pending {c : Console} {b : Byte} {rest : List Byte} (h : c.pending = b :: rest) :
    c.read = some (b, { c with pending := rest }) := by
  simp only [Console.read, h]

/-- A character on offer is the one that `ConsoleRead` takes. -/
theorem Console.Offers.read {b : Byte} {c : Console} (h : c.Offers b) : ∃ c', c.read = some (b, c') := by
  obtain hp | hs := h
  · obtain ⟨rest, hrest⟩ := List.head?_eq_some_iff.mp hp
    exact ⟨_, Console.read_of_pending hrest⟩
  · have hsup : c.Supplies b := hs
    have hread := hsup.read
    rw [hsup.tick] at hread
    exact ⟨c, hread⟩

theorem Console.ready_iff_offers (c : Console) : c.ready = true ↔ ∃ b, c.Offers b := by
  cases hp : c.pending <;> simp [Console.ready, Console.Offers, hp, Option.isSome_iff_exists]

/-- The value of a read of KBDR is also what its backing cell then holds. -/
theorem State.readKbdr_backing {s : State} (hwf : s.mem.wf) :
    s.readKbdr.2.mem.read Config.kbdrAddr = s.readKbdr.1 := by
  obtain ⟨_, _, -, -, he⟩ | ⟨-, he⟩ := s.readKbdr_cases <;> exact he ▸ Memory.read_write_self hwf _ _

/-- The read of KBDR where the query finds the character `b` to take: it answers `b` and draws no free value. -/
theorem State.readKbdr_of_read {s : State} {b : Byte} {con : Console} (hready : s.console.tick.ready = true)
    (hread : s.console.tick.read = some (b, con)) :
    s.readKbdr.1 = zext b ∧ s.readKbdr.2.draws = s.draws ∧ s.readKbdr.2.console = con := by
  have hzext : zext16 b = zext b := BitVec.eq_of_toNat_eq (by simp [zext16, zext])
  simp [State.readKbdr, hready, hread, hzext]

theorem State.readKbdr_of_not_ready {s : State} (h : s.console.tick.ready = false) :
    s.readKbdr = (Config.kbdrEmpty s.draws,
      ((s.setConsole s.console.tick).draw).memWrite Config.kbdrAddr (Config.kbdrEmpty s.draws)) := by
  simp [State.readKbdr, h]

/-- Settles O26: the query's answer decides the value, and the backing cell takes it. -/
theorem kbsrReadReportsAvailability : Obligations.KbsrReadReportsAvailability := by
  intro s
  have hdone : ReadDone s 0xFE00#16 s.readKbsr.2 := s.memRead_kbsr ▸ s.memRead_readDone Config.kbsrAddr
  refine ⟨s.readKbsr.1, s.readKbsr.2, s.memRead_kbsr, fun hav => ?_, fun hnone => ?_, s.console.tick_eq_queried, rfl,
    fun hwf => Memory.read_write_self hwf _ _, hdone⟩
  · exact if_pos ((Console.tick_ready_iff _).mpr hav)
  · exact if_neg fun hready => hnone ((Console.tick_ready_iff _).mp hready)

/-- Settles O27: the oldest pending character, else the tail's, else a fresh free value. -/
theorem kbdrReadConsumesOrDraws : Obligations.KbdrReadConsumesOrDraws := by
  intro s
  have hdone : ReadDone s 0xFE02#16 s.readKbdr.2 := s.memRead_kbdr ▸ s.memRead_readDone Config.kbdrAddr
  have htick := s.console.tick_eq_queried
  refine ⟨s.readKbdr.1, s.readKbdr.2, s.memRead_kbdr, fun c rest hpend => ?_, fun hpend c harr htail => ?_,
    fun hnone => ?_, State.readKbdr_backing, hdone⟩
  · have hav : CharAvailable s.console := .inl (by simp [hpend])
    exact State.readKbdr_of_read ((Console.tick_ready_iff _).mpr hav)
      (htick ▸ Console.read_of_pending (c := queried s.console) hpend)
  · have hav : CharAvailable s.console := .inr ⟨harr, by simp [htail]⟩
    have hsup : (queried s.console).Supplies c := ⟨hpend, harr, htail⟩
    have hread := hsup.read
    rw [hsup.tick, ← htick] at hread
    exact htick ▸ State.readKbdr_of_read ((Console.tick_ready_iff _).mpr hav) hread
  · have hready : s.console.tick.ready = false := by simpa [← Console.tick_ready_iff] using hnone
    rw [State.readKbdr_of_not_ready hready]
    exact ⟨rfl, rfl, htick⟩

/-- While nothing is consumed, the character on offer stays on offer and no free value is drawn. -/
theorem offers_of_nothingConsumed {s t : State} {b : Byte} (h : NothingConsumed s t) (hs : s.console.Offers b) :
    t.console.Offers b ∧ t.draws = s.draws := by
  induction h with
  | refl => exact ⟨hs, rfl⟩
  | draw _ ih =>
    rw [supplied_eq_takeFeed]
    exact ⟨ih.1.takeFeed, ih.2⟩
  | poll _ ih => exact ⟨ih.1.tick, ih.2⟩
  | other _ hc hd ih =>
    rw [hc, hd]
    exact ih

/-- Settles O28: the poll puts a character on offer, where it stays until KBDR is read. -/
theorem pollThenReadGetsTheCharacter : Obligations.PollThenReadGetsTheCharacter := by
  intro s u hbit hbetween
  have hready : s.console.tick.ready = true := by
    refine State.kbsr_ready fun hzero => ?_
    rw [show s.memRead 0xFE00#16 = s.memRead Config.kbsrAddr from rfl, hzero] at hbit
    exact absurd hbit (by decide)
  obtain ⟨b, hb⟩ := (Console.ready_iff_offers _).mp hready
  obtain ⟨hu, hdraws⟩ := offers_of_nothingConsumed hbetween hb
  obtain ⟨con, hcon⟩ := hu.tick.read
  obtain ⟨hv, hd, -⟩ := State.readKbdr_of_read ((Console.ready_iff_offers _).mpr ⟨b, hu.tick⟩) hcon
  refine ⟨b, ?_, ?_, ?_⟩
  · rw [show u.memRead 0xFE02#16 = u.readKbdr from u.memRead_kbdr, hv]
  · rw [show u.memRead 0xFE02#16 = u.readKbdr from u.memRead_kbdr, hd, hdraws]
    rfl
  · rw [Console.tick_eq_queried] at hb
    exact hb.imp id fun ⟨hp, _, ht⟩ => ⟨hp, ht⟩

end Sys2Proof.Machine
end

section
/-!
Which instructions change memory: a store is one write after reads only (42_load_store R67 to R69), and every other
instruction keeps the plain cells (20_memory R29, R30). What is stored in a plain cell is what its fetch executes (R41).
-/

namespace Sys2Proof.Machine

open Sys2Proof.Spec

/-- Every cell but the two keyboard cells reads the same. -/
def PlainCellsKept (s t : State) : Prop := ∀ a, Plain a → t.mem.read a = s.mem.read a

theorem PlainCellsKept.of_mem {s t : State} (h : t.mem = s.mem) : PlainCellsKept s t := fun _ _ => h ▸ rfl

theorem PlainCellsKept.memRead {s t : State} (h : PlainCellsKept s t) (a : Word) : PlainCellsKept s (t.memRead a).2 :=
  fun b hb => (t.memRead_mem_plain a hb.1 hb.2).trans (h b hb)

theorem PlainCellsKept.loadInto {s t : State} (h : PlainCellsKept s t) (dr : Reg) (ea : Word) :
    PlainCellsKept s (t.loadInto dr ea) := h.memRead ea

theorem State.stringRoutine_plainCells {s t : State} {chars : Word → List Byte} (h : s.stringRoutine chars = .next t) :
    PlainCellsKept s t :=
  State.stringLoop_keeps (P := PlainCellsKept s) (fun _ a hu => hu.memRead a) (fun _ _ hu => hu)
    (State.stringRoutine_next h) (.of_mem rfl)

theorem State.getcRoutine_plainCells {s t : State} (h : s.getcRoutine = .next t) : PlainCellsKept s t := by
  obtain ⟨_, _, -, rfl⟩ := State.getcRoutine_next h
  exact .of_mem rfl

theorem State.inRoutine_plainCells {s t : State} (h : s.inRoutine = .next t) : PlainCellsKept s t := by
  obtain ⟨_, _, -, rfl⟩ := State.inRoutine_next h
  exact .of_mem rfl

/-- TRAP is the routine of its vector, or takes the fault (R70, R77): what holds of these holds of TRAP. -/
theorem execTrap_dispatch (x : BitVec 4) (vec : BitVec 8) {motive : BitVec 8 → (State → Answer) → Prop}
    (getc : motive 0x20#8 State.getcRoutine) (out : motive 0x21#8 State.outRoutine)
    (puts : motive 0x22#8 (State.stringRoutine · putsChars)) (inp : motive 0x23#8 State.inRoutine)
    (putsp : motive 0x24#8 (State.stringRoutine · putspChars)) (halt : motive 0x25#8 State.haltRoutine)
    (fault : ∀ vec, trapVectorSupported vec = false →
      motive vec fun s => .next (s.raiseFault .unsupportedTrap (encode (.trap x vec)))) :
    motive vec (execTrap x vec) := by
  change motive vec fun s => execTrap x vec s
  cases hv : trapVectorSupported vec with
  | true =>
    simp only [trapVectorSupported, Bool.or_eq_true, beq_iff_eq] at hv
    rcases hv with ((((rfl | rfl) | rfl) | rfl) | rfl) | rfl <;>
      simp only [execTrap, BitVec.reduceEq, if_true, if_false]
    · exact getc
    · exact out
    · exact puts
    · exact inp
    · exact putsp
    · exact halt
  | false =>
    obtain ⟨h20, h21, h22, h23, h24, h25⟩ := trapVectorSupported_eq_false hv
    simp only [execTrap, h20, h21, h22, h23, h24, h25, if_false]
    exact fault vec hv

theorem execTrap_plainCells {x : BitVec 4} {vec : BitVec 8} {s t : State} (h : execTrap x vec s = .next t) :
    PlainCellsKept s t := by
  refine execTrap_dispatch x vec (motive := fun _ g => g s = .next t → PlainCellsKept s t) ?_ ?_ ?_ ?_ ?_ ?_ ?_ h
  · exact State.getcRoutine_plainCells
  · rintro ⟨⟩
    exact .of_mem rfl
  · exact State.stringRoutine_plainCells
  · exact State.inRoutine_plainCells
  · exact State.stringRoutine_plainCells
  · rintro ⟨⟩
    exact .of_mem rfl
  · rintro _ _ ⟨⟩
    exact .of_mem rfl

/-- An instruction that stores nothing keeps the plain cells. -/
theorem exec_plainCells {i : Instr} {s t : State} (hi : storeOf i s = none) (h : exec i s = .next t) :
    PlainCellsKept s t := by
  cases i with
  | st | sti | str => cases hi
  | addReg | addImm | andReg | andImm | not | lea | jmp | ret | jsr | jsrr | out | halt | reserved1000 | reserved1101 =>
    obtain rfl := Host.Outcome.next.inj h
    exact .of_mem rfl
  | br =>
    obtain rfl := Host.Outcome.next.inj h
    split
    · exact .of_mem rfl
    · exact .of_mem rfl
  | ld | ldr =>
    obtain rfl := Host.Outcome.next.inj h
    exact (PlainCellsKept.of_mem rfl).loadInto _ _
  | ldi =>
    obtain rfl := Host.Outcome.next.inj h
    exact ((PlainCellsKept.of_mem rfl).memRead _).loadInto _ _
  | trap => exact execTrap_plainCells h
  | getc => exact State.getcRoutine_plainCells h
  | inp => exact State.inRoutine_plainCells h
  | puts | putsp => exact State.stringRoutine_plainCells h

/-- A store is one write, after at most the read of the pointer. -/
theorem exec_store {i : Instr} {s : State} {ea v : Word} (hi : storeOf i s = some (ea, v)) :
    ∃ u, exec i s = .next (u.memWrite ea v) ∧ PlainCellsKept s u ∧ (s.mem.wf → u.mem.wf) := by
  cases i with
  | st | str =>
    cases hi
    exact ⟨s, rfl, .of_mem rfl, id⟩
  | sti sr off9 =>
    cases hi
    exact ⟨(s.indirect9 off9).2, rfl, (PlainCellsKept.of_mem (t := s) rfl).memRead _, fun hwf => State.memRead_wf hwf _⟩
  | _ => cases hi

/-- Settles O31: a store writes its own cell, and nothing else writes a plain cell. -/
theorem onlyStoresChangePlainCells : Obligations.OnlyStoresChangePlainCells := by
  intro i s t a h hplain hother
  cases hi : storeOf i s with
  | none => exact exec_plainCells hi h a hplain
  | some store =>
    obtain ⟨ea, v⟩ := store
    obtain ⟨u, hu, hcells, -⟩ := exec_store hi
    obtain rfl := Host.Outcome.next.inj (hu.symm.trans h)
    have hne : a ≠ ea := fun hea => hother v (hea ▸ hi)
    exact (Memory.read_write_ne _ v hne).trans (hcells a hplain)

theorem fetched_plain {s : State} (h : Plain s.pc) : fetched s = (s.mem.read s.pc, supplied s) := by
  rw [fetched, State.memRead_plain _ h.1 h.2, supplied_eq_takeFeed, State.takeFeed_mem]

/-- Settles O10: the cell holds the stored value, and the fetch of a plain cell reads it. -/
theorem storedWordIsFetched : Obligations.StoredWordIsFetched := by
  intro i s ea v hi hplain hwf
  obtain ⟨w, hw, -, hwfw⟩ := exec_store hi
  refine ⟨_, hw, fun u hcell hrun hpc => ?_⟩
  subst hpc
  have hread : u.mem.read u.pc = v := hcell.trans (Memory.read_write_self (hwfw hwf) _ v)
  rw [step_of_running hrun, fetched_plain hplain, hread]

end Sys2Proof.Machine
end

section
/-!
A running core completes every step, except that GETC and IN may wait for input and PUTS and PUTSP may never find a
zero word (20_memory R38, 60_exceptions R79, 70_reset_and_hazards R93).
-/

namespace Sys2Proof.Machine

open Sys2Proof.Spec

/-- The two ways in which a step of a running core has no next state. -/
def Waits (o : Answer) : Prop := (∃ held, o = .fault (.inputNeverArrives held)) ∨ o = .fault .stringNeverEnds

theorem State.getcRoutine_next_or_waits (s : State) : (∃ t, s.getcRoutine = .next t) ∨ Waits s.getcRoutine := by
  unfold State.getcRoutine
  split
  · exact .inl ⟨_, rfl⟩
  · exact .inr (.inl ⟨_, rfl⟩)

theorem State.inRoutine_next_or_waits (s : State) : (∃ t, s.inRoutine = .next t) ∨ Waits s.inRoutine := by
  simp only [State.inRoutine]
  split
  · exact .inl ⟨_, rfl⟩
  · exact .inr (.inl ⟨_, rfl⟩)

/-- What a string routine answers, by the outcome of its loop (R73, R75). -/
theorem State.stringRoutine_cases (s : State) (chars : Word → List Byte) :
    (∃ t, State.stringLoop chars s.stringFuel (s.getReg 0) s = some t ∧ s.stringRoutine chars = .next t) ∨
    (State.stringLoop chars s.stringFuel (s.getReg 0) s = none ∧ s.stringRoutine chars = .fault .stringNeverEnds) := by
  unfold State.stringRoutine
  split
  · next t hloop => exact .inl ⟨t, hloop, rfl⟩
  · next hloop => exact .inr ⟨hloop, rfl⟩

theorem State.stringRoutine_next_or_waits (s : State) (chars : Word → List Byte) :
    (∃ t, s.stringRoutine chars = .next t) ∨ Waits (s.stringRoutine chars) := by
  obtain ⟨t, -, h⟩ | ⟨-, h⟩ := s.stringRoutine_cases chars
  · exact .inl ⟨t, h⟩
  · exact .inr (.inr h)

/-- TRAP waits only in the routines of the four vectors that can (R70). -/
theorem execTrap_next_or_waits (x : BitVec 4) (vec : BitVec 8) (s : State) :
    (∃ t, execTrap x vec s = .next t) ∨ (canWait (.trap x vec) = true ∧ Waits (execTrap x vec s)) := by
  refine execTrap_dispatch x vec
    (motive := fun vec g => (∃ t, g s = .next t) ∨ (canWait (.trap x vec) = true ∧ Waits (g s))) ?_ ?_ ?_ ?_ ?_ ?_ ?_
  · exact s.getcRoutine_next_or_waits.imp_right (.intro rfl)
  · exact .inl ⟨_, rfl⟩
  · exact (s.stringRoutine_next_or_waits _).imp_right (.intro rfl)
  · exact s.inRoutine_next_or_waits.imp_right (.intro rfl)
  · exact (s.stringRoutine_next_or_waits _).imp_right (.intro rfl)
  · exact .inl ⟨_, rfl⟩
  · exact fun _ _ => .inl ⟨_, rfl⟩

theorem exec_next_or_waits (i : Instr) (s : State) :
    (∃ t, exec i s = .next t) ∨ (canWait i = true ∧ Waits (exec i s)) := by
  cases i with
  | trap x vec => exact execTrap_next_or_waits x vec s
  | getc => exact s.getcRoutine_next_or_waits.imp_right (.intro rfl)
  | inp => exact s.inRoutine_next_or_waits.imp_right (.intro rfl)
  | puts | putsp => exact (s.stringRoutine_next_or_waits _).imp_right (.intro rfl)
  | _ => exact .inl ⟨_, rfl⟩

/-- Settles O9: the step of a running core is the execution of the fetched word. -/
theorem runningStepsCompleteOrWait : Obligations.RunningStepsCompleteOrWait := by
  intro s hrun
  rw [step_of_running hrun]
  exact exec_next_or_waits _ _

end Sys2Proof.Machine
end

section
/-!
Noninterference of the keyboard cells (20_memory R30 to R33, decision D14): two states that differ only in the backing
cells of 0xFE00 and 0xFE02 answer alike to every read, and every operation keeps them so.
-/

namespace Sys2Proof.Machine

open Sys2Proof.Spec

/-- `s` over the memory `m`. -/
def State.withMem (s : State) (m : Memory) : State := { s with mem := m }

/-- Two states with canonical memories that differ at most in the backing cells of 0xFE00 and 0xFE02. -/
structure Alike (s u : State) : Prop where
  wf_left : s.mem.wf
  wf_right : u.mem.wf
  eq_withMem : u = s.withMem u.mem
  cells : PlainCellsKept s u

/-- Whatever next state `o` answers, `p` answers one that is alike. -/
def AnswersAlike (o p : Answer) : Prop := ∀ t, o = .next t → ∃ v, p = .next v ∧ Alike t v

/-- An operation that neither reads nor writes memory. -/
def MemoryBlind (g : State → Answer) : Prop := ∀ s m t, g s = .next t → g (s.withMem m) = .next (t.withMem m)

theorem State.getcRoutine_memoryBlind : MemoryBlind State.getcRoutine := by
  intro s m t h
  obtain ⟨c, con, hr, rfl⟩ := State.getcRoutine_next h
  have hr' : (s.withMem m).console.read = some (c, con) := hr
  simp only [State.getcRoutine, hr']
  rfl

theorem State.inRoutine_memoryBlind : MemoryBlind State.inRoutine := by
  intro s m t h
  obtain ⟨c, con, hr, rfl⟩ := State.inRoutine_next h
  have hr' : ((s.withMem m).writeChars Config.inPrompt).console.read = some (c, con) := hr
  simp only [State.inRoutine, hr']
  rfl

theorem State.outRoutine_memoryBlind : MemoryBlind State.outRoutine := by
  rintro s m _ ⟨⟩
  rfl

theorem State.haltRoutine_memoryBlind : MemoryBlind State.haltRoutine := by
  rintro s m _ ⟨⟩
  rfl

theorem execBr_memoryBlind (nzp : BitVec 3) (off9 : BitVec 9) : MemoryBlind (execBr nzp off9) := by
  rintro s m _ ⟨⟩
  split
  · next htaken => exact congrArg Host.Outcome.next (if_pos htaken)
  · next hnot => exact congrArg Host.Outcome.next (if_neg hnot)

namespace Alike

variable {s u : State}

theorem of_sameButKeyboardCells (hs : s.mem.wf) (hu : u.mem.wf) (h : SameButKeyboardCells s u) : Alike s u := by
  obtain ⟨hregs, hpc, hcond, ⟨hrun, hfault⟩, ⟨hcon, hdraws⟩, hcells⟩ := h
  exact ⟨hs, hu, State.ext_of_fields hregs hpc hcond hrun hfault rfl hcon hdraws, hcells⟩

/-- What does not depend on memory is the same in both states. -/
theorem same (h : Alike s u) {α : Type} (f : State → α) (hf : ∀ s m, f (s.withMem m) = f s) : f u = f s := by
  rw [h.eq_withMem, hf]

theorem getReg (h : Alike s u) (r : Reg) : u.getReg r = s.getReg r := h.same (State.getReg · r) fun _ _ => rfl

theorem pc (h : Alike s u) : u.pc = s.pc := h.same State.pc fun _ _ => rfl

theorem run (h : Alike s u) : u.run = s.run := h.same State.run fun _ _ => rfl

theorem console (h : Alike s u) : u.console = s.console := h.same State.console fun _ _ => rfl

theorem draws (h : Alike s u) : u.draws = s.draws := h.same State.draws fun _ _ => rfl

theorem pcRel9 (h : Alike s u) (off9 : BitVec 9) : u.pcRel9 off9 = s.pcRel9 off9 :=
  h.same (State.pcRel9 · off9) fun _ _ => rfl

theorem baseOff6 (h : Alike s u) (base : Reg) (off6 : BitVec 6) : u.baseOff6 base off6 = s.baseOff6 base off6 :=
  h.same (State.baseOff6 · base off6) fun _ _ => rfl

theorem stringFuel (h : Alike s u) : u.stringFuel = s.stringFuel := h.same State.stringFuel fun _ _ => rfl

theorem sameButKeyboardCells (h : Alike s u) : SameButKeyboardCells s u :=
  ⟨h.getReg, h.pc, h.same State.cond fun _ _ => rfl, ⟨h.run, h.same State.faultRecord fun _ _ => rfl⟩,
    ⟨h.console, h.draws⟩, h.cells⟩

/-- A state over the memory of `s` and the same one over the memory of `u`. -/
theorem withMem {t : State} (h : Alike s u) (ht : t.mem = s.mem) : Alike t (t.withMem u.mem) :=
  ⟨ht ▸ h.wf_left, h.wf_right, rfl, fun a ha => ht ▸ h.cells a ha⟩

theorem map (h : Alike s u) (f : State → State) (hf : ∀ s m, f (s.withMem m) = (f s).withMem m) :
    Alike (f s) (f u) := by
  have hmem : (f s).mem = s.mem := (congrArg State.mem (hf s s.mem) :)
  rw [h.eq_withMem, hf]
  exact h.withMem hmem

theorem blind (h : Alike s u) {g : State → Answer} (hg : MemoryBlind g) : AnswersAlike (g s) (g u) := by
  intro t ht
  have hself : t = t.withMem s.mem := Host.Outcome.next.inj (ht.symm.trans (hg s s.mem t ht))
  have hmem : t.mem = s.mem := (congrArg State.mem hself :)
  refine ⟨t.withMem u.mem, ?_, h.withMem hmem⟩
  rw [h.eq_withMem]
  exact hg s u.mem t ht

theorem next (h : Alike s u) : AnswersAlike (.next s) (.next u) := by
  rintro t ⟨⟩
  exact ⟨u, rfl, h⟩

theorem setConsole (h : Alike s u) (c : Console) : Alike (s.setConsole c) (u.setConsole c) :=
  h.map (State.setConsole · c) fun _ _ => rfl

/-- The same write keeps two states alike, to a keyboard cell as well. -/
theorem memWrite (h : Alike s u) (a v : Word) : Alike (s.memWrite a v) (u.memWrite a v) where
  wf_left := Memory.wf_write h.wf_left a v
  wf_right := Memory.wf_write h.wf_right a v
  eq_withMem := (congrArg (State.withMem · (u.mem.write a v)) h.eq_withMem :)
  cells b hb := by
    simp only [State.memWrite_mem]
    by_cases hba : b = a
    · rw [hba, Memory.read_write_self h.wf_right, Memory.read_write_self h.wf_left]
    · rw [Memory.read_write_ne _ _ hba, Memory.read_write_ne _ _ hba, h.cells b hb]

/-- A read answers both states the same and keeps them alike (R31, R32). -/
theorem memRead (h : Alike s u) (a : Word) :
    (u.memRead a).1 = (s.memRead a).1 ∧ Alike (s.memRead a).2 (u.memRead a).2 := by
  by_cases hsr : a = Config.kbsrAddr
  · subst hsr
    rw [State.memRead_kbsr, State.memRead_kbsr, State.readKbsr_eq, State.readKbsr_eq, h.console]
    exact ⟨rfl, (h.setConsole _).memWrite _ _⟩
  by_cases hdr : a = Config.kbdrAddr
  · subst hdr
    simp only [State.memRead_kbdr, State.readKbdr, h.console, h.draws]
    split
    · exact ⟨rfl, (h.setConsole _).memWrite _ _⟩
    · exact ⟨rfl, ((h.setConsole _).map State.draw fun _ _ => rfl).memWrite _ _⟩
  · rw [State.memRead_plain _ hsr hdr, State.memRead_plain _ hsr hdr]
    exact ⟨h.cells a ⟨hsr, hdr⟩, h⟩

theorem loadInto (h : Alike s u) (dr : Reg) (ea : Word) : Alike (s.loadInto dr ea) (u.loadInto dr ea) := by
  obtain ⟨hv, hread⟩ := h.memRead ea
  simp only [State.loadInto, hv]
  exact hread.map (State.writeResult · dr _) fun _ _ => rfl

/-- The loops of both states read the same words, and so end at the same turn. -/
theorem stringLoop (h : Alike s u) {chars : Word → List Byte} {fuel : Nat} {a : Word} {t : State}
    (ht : State.stringLoop chars fuel a s = some t) :
    ∃ v, State.stringLoop chars fuel a u = some v ∧ Alike t v := by
  induction fuel generalizing a s u with
  | zero => cases ht
  | succ n ih =>
    obtain ⟨hv, hread⟩ := h.memRead a
    simp only [State.stringLoop, hv] at ht ⊢
    split at ht
    · next hz =>
      cases ht
      exact ⟨_, if_pos hz, hread⟩
    · next hz =>
      rw [if_neg hz]
      exact ih (hread.map (State.writeChars · _) fun _ _ => rfl) ht

theorem stringRoutine (h : Alike s u) (chars : Word → List Byte) :
    AnswersAlike (s.stringRoutine chars) (u.stringRoutine chars) := by
  intro t ht
  obtain ⟨v, hv, hal⟩ := h.stringLoop (State.stringRoutine_next ht)
  rw [← h.stringFuel, ← h.getReg] at hv
  obtain ⟨w, hw, hnext⟩ | ⟨hnone, -⟩ := u.stringRoutine_cases chars
  · obtain rfl := Option.some.inj (hv.symm.trans hw)
    exact ⟨v, hnext, hal⟩
  · cases hv.symm.trans hnone

theorem execTrap (h : Alike s u) (x : BitVec 4) (vec : BitVec 8) :
    AnswersAlike (execTrap x vec s) (execTrap x vec u) := by
  refine execTrap_dispatch x vec (motive := fun _ g => AnswersAlike (g s) (g u)) ?_ ?_ ?_ ?_ ?_ ?_ ?_
  · exact h.blind State.getcRoutine_memoryBlind
  · exact h.blind State.outRoutine_memoryBlind
  · exact h.stringRoutine putsChars
  · exact h.blind State.inRoutine_memoryBlind
  · exact h.stringRoutine putspChars
  · exact h.blind State.haltRoutine_memoryBlind
  · exact fun _ _ => (h.map (State.raiseFault · _ _) fun _ _ => rfl).next

/-- Every instruction keeps two states alike. -/
theorem exec (h : Alike s u) (i : Instr) : AnswersAlike (exec i s) (exec i u) := by
  cases i with
  | addReg | addImm | andReg | andImm | not | lea | jmp | ret | jsr | jsrr | reserved1000 | reserved1101 =>
    refine h.blind ?_
    rintro s m _ ⟨⟩
    rfl
  | br nzp off9 => exact h.blind (execBr_memoryBlind nzp off9)
  | ld dr off9 =>
    simp only [Machine.exec, execLd, h.pcRel9]
    exact (h.loadInto dr _).next
  | ldr dr base off6 =>
    simp only [Machine.exec, execLdr, h.baseOff6]
    exact (h.loadInto dr _).next
  | ldi dr off9 =>
    obtain ⟨hp, hread⟩ := h.memRead (s.pcRel9 off9)
    simp only [Machine.exec, execLdi, State.indirect9, h.pcRel9, hp]
    exact (hread.loadInto dr _).next
  | st sr off9 =>
    simp only [Machine.exec, execSt, h.pcRel9, h.getReg]
    exact (h.memWrite _ _).next
  | str sr base off6 =>
    simp only [Machine.exec, execStr, h.baseOff6, h.getReg]
    exact (h.memWrite _ _).next
  | sti sr off9 =>
    obtain ⟨hp, hread⟩ := h.memRead (s.pcRel9 off9)
    simp only [Machine.exec, execSti, State.indirect9, h.pcRel9, h.getReg, hp]
    exact (hread.memWrite _ _).next
  | trap x vec => exact h.execTrap x vec
  | getc => exact h.blind State.getcRoutine_memoryBlind
  | inp => exact h.blind State.inRoutine_memoryBlind
  | puts => exact h.stringRoutine putsChars
  | putsp => exact h.stringRoutine putspChars
  | out => exact h.blind State.outRoutine_memoryBlind
  | halt => exact h.blind State.haltRoutine_memoryBlind

/-- The fetch is a read, also at a keyboard cell (D13). -/
theorem fetched (h : Alike s u) :
    (fetched u).1 = (fetched s).1 ∧ Alike (fetched s).2 (fetched u).2 := by
  have hfeed : Alike s.takeFeed u.takeFeed := h.map State.takeFeed fun _ _ => rfl
  simp only [Spec.fetched, supplied_eq_takeFeed, h.pc]
  exact hfeed.memRead s.pc

theorem step (h : Alike s u) : AnswersAlike (step s) (step u) := by
  intro t ht
  obtain ⟨hrun, -⟩ := step_next ht
  obtain ⟨hword, hstate⟩ := h.fetched
  rw [step_of_running hrun] at ht
  rw [step_of_running (h.run.trans hrun), hword, h.pc]
  exact (hstate.map (State.setPc · _) fun _ _ => rfl).exec _ t ht

end Alike

/-- Settles O30: being alike is kept by the step, and is the statement's relation over canonical memories. -/
theorem keyboardCellsNeverObservable : Obligations.KeyboardCellsNeverObservable := by
  intro s u t hs hu hsame hstep
  obtain ⟨v, hv, halike⟩ := (Alike.of_sameButKeyboardCells hs hu hsame).step t hstep
  exact ⟨v, hv, halike.sameButKeyboardCells⟩

end Sys2Proof.Machine
end

section
/-!
The encoding in both directions (30_encoding R43 to R50): a word is its fields put together, so the instruction it
decodes to encodes to it again.
-/

namespace Sys2Proof

open Sys2Proof.Machine Sys2Proof.Spec

/-- Adjacent fields are one field. -/
theorem field_append_field {w : Word} {hi lo m n : Nat} (h : hi = lo + n) :
    field w hi m ++ field w lo n = field w lo (m + n) :=
  BitVec.extractLsb'_append_extractLsb'_eq_extractLsb' h

theorem field_all (w : Word) : field w 0 16 = w := BitVec.extractLsb'_eq_self

theorem field_one_ne_zero {w : Word} {n : Nat} (h : field w n 1 ≠ 0#1) : field w n 1 = 1#1 :=
  (BitVec.eq_zero_or_eq_one _).resolve_left h

theorem field_one_ne_one {w : Word} {n : Nat} (h : field w n 1 ≠ 1#1) : field w n 1 = 0#1 :=
  (BitVec.eq_zero_or_eq_one _).resolve_right h

/-! The layouts of R45: the fields of one word, put together in each layout's order, are the word. -/

section
variable {w : Word} {o : BitVec 4} {b : BitVec 1} (h : opcode w = o)
include h

theorem join_op_low12 : o ++ field w 0 12 = w := by
  simp (disch := decide) only [← h, opcode, field_append_field]
  exact field_all w

theorem join_op_nzp_off9 : o ++ field w 9 3 ++ field w 0 9 = w := by
  simp (disch := decide) only [← h, opcode, field_append_field]
  exact field_all w

theorem join_op_reg_off9 : o ++ regBits (regOf (field w 9 3)) ++ field w 0 9 = w := by
  rw [regBits_regOf, join_op_nzp_off9 h]

theorem join_op_x_reg_low6 : o ++ field w 9 3 ++ regBits (regOf (field w 6 3)) ++ field w 0 6 = w := by
  simp (disch := decide) only [← h, opcode, regBits_regOf, field_append_field]
  exact field_all w

theorem join_op_reg_reg_low6 :
    o ++ regBits (regOf (field w 9 3)) ++ regBits (regOf (field w 6 3)) ++ field w 0 6 = w := by
  rw [regBits_regOf (field w 9 3), join_op_x_reg_low6 h]

theorem join_op_reg_reg_mode_x_reg (hb : field w 5 1 = b) :
    o ++ regBits (regOf (field w 9 3)) ++ regBits (regOf (field w 6 3)) ++ b ++ field w 3 2 ++
      regBits (regOf (field w 0 3)) = w := by
  simp (disch := decide) only [← h, ← hb, opcode, regBits_regOf, field_append_field]
  exact field_all w

theorem join_op_reg_reg_mode_imm5 (hb : field w 5 1 = b) :
    o ++ regBits (regOf (field w 9 3)) ++ regBits (regOf (field w 6 3)) ++ b ++ field w 0 5 = w := by
  simp (disch := decide) only [← h, ← hb, opcode, regBits_regOf, field_append_field]
  exact field_all w

theorem join_op_mode_off11 (hb : field w 11 1 = b) : o ++ b ++ field w 0 11 = w := by
  simp (disch := decide) only [← h, ← hb, opcode, field_append_field]
  exact field_all w

theorem join_op_mode_x_reg_low6 (hb : field w 11 1 = b) :
    o ++ b ++ field w 9 2 ++ regBits (regOf (field w 6 3)) ++ field w 0 6 = w := by
  simp (disch := decide) only [← h, ← hb, opcode, regBits_regOf, field_append_field]
  exact field_all w

theorem join_op_x_vec : o ++ field w 8 4 ++ field w 0 8 = w := by
  simp (disch := decide) only [← h, opcode, field_append_field]
  exact field_all w
end

/-- The instruction is well formed and `w` is its word. -/
def IsWordOf (w : Word) (i : Instr) : Prop := i.wellFormed = true ∧ encode i = w

theorem decodeJmp_isWordOf {w : Word} {x : BitVec 3} {base : Reg} {y : BitVec 6}
    (hw : 0xC#4 ++ x ++ regBits base ++ y = w) : IsWordOf w (decodeJmp x base y) := by
  unfold decodeJmp
  split
  · next h => subst h; exact ⟨rfl, hw⟩
  · next h => exact ⟨bne_iff_ne.mpr h, hw⟩

theorem decodeTrap_isWordOf {w : Word} {x : BitVec 4} {vec : BitVec 8} (hw : 0xF#4 ++ x ++ vec = w) :
    IsWordOf w (decodeTrap x vec) := by
  cases hv : trapVectorSupported vec with
  | false =>
    rw [decodeTrap_of_unsupported hv]
    exact ⟨by simp [Instr.wellFormed, hv], hw⟩
  | true =>
    simp only [trapVectorSupported, Bool.or_eq_true, beq_iff_eq] at hv
    rcases hv with ((((rfl | rfl) | rfl) | rfl) | rfl) | rfl <;> exact ⟨rfl, hw⟩

theorem IsWordOf.ite {w : Word} {c : Prop} [Decidable c] {i j : Instr} (hi : c → IsWordOf w i)
    (hj : ¬c → IsWordOf w j) : IsWordOf w (if c then i else j) :=
  iteInduction hi hj

theorem decode_isWordOf (w : Word) : IsWordOf w (decode w) := by
  unfold decode
  refine .ite (fun h => ⟨rfl, join_op_nzp_off9 h⟩) fun h0 => ?_
  refine .ite (fun h => .ite (fun hb => ⟨rfl, join_op_reg_reg_mode_x_reg h hb⟩)
    fun hb => ⟨rfl, join_op_reg_reg_mode_imm5 h (field_one_ne_zero hb)⟩) fun h1 => ?_
  refine .ite (fun h => ⟨rfl, join_op_reg_off9 h⟩) fun h2 => ?_
  refine .ite (fun h => ⟨rfl, join_op_reg_off9 h⟩) fun h3 => ?_
  refine .ite (fun h => .ite (fun hb => ⟨rfl, join_op_mode_off11 h hb⟩)
    fun hb => ⟨rfl, join_op_mode_x_reg_low6 h (field_one_ne_one hb)⟩) fun h4 => ?_
  refine .ite (fun h => .ite (fun hb => ⟨rfl, join_op_reg_reg_mode_x_reg h hb⟩)
    fun hb => ⟨rfl, join_op_reg_reg_mode_imm5 h (field_one_ne_zero hb)⟩) fun h5 => ?_
  refine .ite (fun h => ⟨rfl, join_op_reg_reg_low6 h⟩) fun h6 => ?_
  refine .ite (fun h => ⟨rfl, join_op_reg_reg_low6 h⟩) fun h7 => ?_
  refine .ite (fun h => ⟨rfl, join_op_low12 h⟩) fun h8 => ?_
  refine .ite (fun h => ⟨rfl, join_op_reg_reg_low6 h⟩) fun h9 => ?_
  refine .ite (fun h => ⟨rfl, join_op_reg_off9 h⟩) fun hA => ?_
  refine .ite (fun h => ⟨rfl, join_op_reg_off9 h⟩) fun hB => ?_
  refine .ite (fun h => decodeJmp_isWordOf (join_op_x_reg_low6 h)) fun hC => ?_
  refine .ite (fun h => ⟨rfl, join_op_low12 h⟩) fun hD => ?_
  refine .ite (fun h => ⟨rfl, join_op_reg_off9 h⟩) fun hE => ?_
  have hF : opcode w = 0xF#4 := by
    generalize opcode w = o at *
    bv_omega
  exact decodeTrap_isWordOf (join_op_x_vec hF)

/-- Settles O3, by the branches of `decode`: each puts the word together again from the fields it took. -/
theorem encodeOfDecode : Obligations.EncodeOfDecode := decode_isWordOf

/-- Settles O1, by running the decoder on the 26 words. -/
theorem specExampleWordsDecode : Obligations.SpecExampleWordsDecode := by
  unfold Obligations.SpecExampleWordsDecode
  decide

/-- Settles O2, by cases on the instruction (`decode_encode`). -/
theorem decodeOfEncode : Obligations.DecodeOfEncode := fun _ => decode_encode

end Sys2Proof
end

section
/-!
The bits of a word that no effect depends on (30_encoding R48): the instructions that have such bits run by the other
fields alone. And the fault of the reserved opcodes (R49).
-/

namespace Sys2Proof.Machine

open Sys2Proof.Spec

section
variable {w : Word} (s : State)

/-! What the words of the rows with don't-care bits do, by the fields that count. -/

theorem exec_decode_addReg (ho : opcode w = 0x1#4) (hm : field w 5 1 = 0#1) :
    exec (decode w) s = execAddReg (regOf (field w 9 3)) (regOf (field w 6 3)) (regOf (field w 0 3)) s := by
  simp [decode, ho, hm, exec]

theorem exec_decode_andReg (ho : opcode w = 0x5#4) (hm : field w 5 1 = 0#1) :
    exec (decode w) s = execAndReg (regOf (field w 9 3)) (regOf (field w 6 3)) (regOf (field w 0 3)) s := by
  simp [decode, ho, hm, exec]

theorem exec_decode_not (ho : opcode w = 0x9#4) :
    exec (decode w) s = execNot (regOf (field w 9 3)) (regOf (field w 6 3)) s := by
  simp [decode, ho, exec]

theorem exec_decode_jsrr (ho : opcode w = 0x4#4) (hm : field w 11 1 = 0#1) :
    exec (decode w) s = execJsrr (regOf (field w 6 3)) s := by
  simp [decode, ho, hm, exec]

/-- JMP's and RET's words jump through the base field alike (R59). -/
theorem exec_decode_jmp (ho : opcode w = 0xC#4) : exec (decode w) s = execJmp (regOf (field w 6 3)) s := by
  have hjmp : decode w = decodeJmp (field w 9 3) (regOf (field w 6 3)) (field w 0 6) := by simp [decode, ho]
  rw [hjmp, decodeJmp]
  split
  · next hbase => rw [hbase]; rfl
  · rfl

/-- A supported vector's word runs its routine, which no bit outside the vector reaches (R50). -/
theorem exec_decode_trap (ho : opcode w = 0xF#4) (hv : trapVectorSupported (field w 0 8) = true) :
    exec (decode w) s = execTrap 0 (field w 0 8) s := by
  have htrap : decode w = decodeTrap (field w 8 4) (field w 0 8) := by simp [decode, ho]
  rw [htrap]
  generalize field w 0 8 = vec at hv ⊢
  simp only [trapVectorSupported, Bool.or_eq_true, beq_iff_eq] at hv
  rcases hv with ((((rfl | rfl) | rfl) | rfl) | rfl) | rfl <;> rfl
end

/-- Words that agree outside a mask have the fields in common that the mask leaves alone. -/
theorem field_eq_of_masked_eq {w w' m : Word} (h : w &&& ~~~m = w' &&& ~~~m) (lo len : Nat)
    (hm : field m lo len = 0#len := by decide) (hle : lo + len ≤ 16 := by decide) :
    field w' lo len = field w lo len := by
  have hmask (v : Word) : field (v &&& ~~~m) lo len = field v lo len := by
    refine BitVec.eq_of_getLsbD_eq fun i hi => ?_
    have hlt : lo + i < 16 := by omega
    have hbit : m.getLsbD (lo + i) = false := by
      have hfield := field_getLsbD m lo len i
      rw [hm] at hfield
      simpa [hi] using hfield.symm
    simp only [field_getLsbD, BitVec.getLsbD_and, BitVec.getLsbD_not, hbit, hlt, decide_true, Bool.not_false,
      Bool.and_true]
  rw [← hmask w', ← h, hmask]

theorem field_one_of_getLsbD {w : Word} {n : Nat} (h : ¬w.getLsbD n = true) : field w n 1 = 0#1 := by
  rw [BitVec.getLsbD_eq_extractLsb'] at h
  exact field_one_ne_one (by simpa [field] using h)

/-- Settles O4, by R48's table: the words of a row with don't-care bits run by fields outside them; elsewhere the two
words are equal. -/
theorem dontCareBitsIgnored : Obligations.DontCareBitsIgnored := by
  intro w w' s h hv
  have run_eq (h0 : w &&& ~~~0#16 = w' &&& ~~~0#16) : exec (decode w') s = exec (decode w) s := by
    simp only [BitVec.not_zero, BitVec.and_allOnes] at h0
    rw [h0]
  unfold dontCare at h
  split_ifs at h with hop hbit hop hop hop hbit hop
  · exact run_eq h
  · -- ADD and AND of two registers
    have hm := field_one_of_getLsbD hbit
    have hm' := (field_eq_of_masked_eq h 5 1).trans hm
    have hop' := field_eq_of_masked_eq h 12 4
    obtain ho | ho := hop
    · rw [exec_decode_addReg s ho hm, exec_decode_addReg s (hop'.trans ho) hm', field_eq_of_masked_eq h 9 3,
        field_eq_of_masked_eq h 6 3, field_eq_of_masked_eq h 0 3]
    · rw [exec_decode_andReg s ho hm, exec_decode_andReg s (hop'.trans ho) hm', field_eq_of_masked_eq h 9 3,
        field_eq_of_masked_eq h 6 3, field_eq_of_masked_eq h 0 3]
  · -- NOT
    have hop' := (field_eq_of_masked_eq h 12 4).trans hop
    rw [exec_decode_not s hop, exec_decode_not s hop', field_eq_of_masked_eq h 9 3, field_eq_of_masked_eq h 6 3]
  · -- JMP and RET
    have hop' := (field_eq_of_masked_eq h 12 4).trans hop
    rw [exec_decode_jmp s hop, exec_decode_jmp s hop', field_eq_of_masked_eq h 6 3]
  · exact run_eq h
  · -- JSRR
    have hm := field_one_of_getLsbD hbit
    have hm' := (field_eq_of_masked_eq h 11 1).trans hm
    have hop' := (field_eq_of_masked_eq h 12 4).trans hop
    rw [exec_decode_jsrr s hop hm, exec_decode_jsrr s hop' hm', field_eq_of_masked_eq h 6 3]
  · -- TRAP with a routine
    have hop' := (field_eq_of_masked_eq h 12 4).trans hop
    have hvec := field_eq_of_masked_eq h 0 8
    rw [exec_decode_trap s hop (hv hop), exec_decode_trap s hop' (hvec ▸ hv hop), hvec]
  · exact run_eq h

theorem State.raiseFault_faultTaken (s : State) (cause : FaultCause) (w : Word) :
    FaultTaken s cause w (s.raiseFault cause w) :=
  ⟨rfl, rfl, rfl, fun _ => rfl, rfl, fun _ => rfl, rfl, rfl⟩

/-- Settles O50: the reserved terms' words decode to them (`decode_encode`), and `exec` raises the fault. -/
theorem reservedOpcodesFault : Obligations.ReservedOpcodesFault := fun x s =>
  ⟨decode_encode (i := .reserved1000 x) rfl, decode_encode (i := .reserved1101 x) rfl, rfl,
    ⟨_, rfl, s.raiseFault_faultTaken .reservedOpcode _⟩, ⟨_, rfl, s.raiseFault_faultTaken .reservedOpcode _⟩⟩

end Sys2Proof.Machine
end

section
/-!
The operate instructions (40_operate R53 to R57): what any write of a result leaves, and that the value the model
computes is the one each rule names.
-/

namespace Sys2Proof.Machine

open Sys2Proof.Spec

/-- What any write of a result leaves. -/
theorem State.writeResult_resultWritten (s : State) (dr : Reg) (v : Word) : ResultWritten s dr v (s.writeResult dr v) :=
  ⟨s.getReg_writeResult_self dr v, fun _ hr => s.getReg_writeResult_ne v hr, flagsOf_eq_flagWord v, rfl, ⟨rfl, rfl⟩,
    fun _ => rfl, rfl, rfl⟩

/-- The model's sign extension takes the field's signed value modulo 2^16, as R10 has it. -/
theorem sext16_eq_sext {w : Nat} (f : BitVec w) : sext16 f = sext f := rfl

/-- A word plus a field's sign extension is the sum with the field's signed value, modulo 2^16. -/
theorem add_sext16 {w : Nat} (v : Word) (f : BitVec w) : v + sext16 f = BitVec.ofInt 16 (v.toNat + f.toInt) := by
  rw [sext16_eq_sext, sext, BitVec.ofInt_add, BitVec.ofInt_natCast, BitVec.ofNat_toNat, BitVec.setWidth_eq]

/-- From its own width on, a sign-extended field repeats its top bit. -/
theorem sext16_getLsbD_of_le {w n : Nat} (f : BitVec w) (hw : w ≤ n) (hn : n < 16) :
    (sext16 f).getLsbD n = f.msb := by
  rw [sext16, BitVec.getLsbD_signExtend, if_neg (by omega), decide_eq_true hn, Bool.true_and]

/-- The complement is the value's distance from 0xFFFF (R57). -/
theorem not_eq_ofNat_sub (v : Word) : ~~~v = BitVec.ofNat 16 (0xFFFF - v.toNat) := by bv_omega

/-- Settles O15: the word is the row's (`decode_encode`), and the sum of two words is taken modulo 2^16. -/
theorem addRegisterResult : Obligations.AddRegisterResult := fun dr sr1 x sr2 s =>
  ⟨decode_encode (i := .addReg dr sr1 x sr2) rfl, _, rfl,
    BitVec.add_def (s.getReg sr1) (s.getReg sr2) ▸ s.writeResult_resultWritten dr (s.getReg sr1 + s.getReg sr2)⟩

/-- Settles O16, by `add_sext16`. -/
theorem addImmediateResult : Obligations.AddImmediateResult := fun dr sr1 imm5 s =>
  ⟨decode_encode (i := .addImm dr sr1 imm5) rfl, _, rfl,
    add_sext16 (s.getReg sr1) imm5 ▸ s.writeResult_resultWritten dr (s.getReg sr1 + sext16 imm5)⟩

/-- Settles O17: the word is the row's (`decode_encode`), and the model's value is the rule's. -/
theorem andRegisterResult : Obligations.AndRegisterResult := fun dr sr1 x sr2 s =>
  ⟨decode_encode (i := .andReg dr sr1 x sr2) rfl, _, rfl, s.writeResult_resultWritten dr _⟩

/-- Settles O18: the immediate is sign-extended, so bits 15:5 of it are its bit 4 (`sext16_getLsbD_of_le`). -/
theorem andImmediateResult : Obligations.AndImmediateResult := by
  intro dr sr1 imm5 s
  refine ⟨decode_encode (i := .andImm dr sr1 imm5) rfl, s.writeResult dr (s.getReg sr1 &&& sext16 imm5), rfl,
    s.writeResult_resultWritten dr _, fun n hlo hhi => ?_⟩
  rw [State.getReg_writeResult_self, BitVec.getLsbD_and, sext16_getLsbD_of_le imm5 hlo hhi, BitVec.msb_eq_getLsbD_last]

/-- Settles O19, by `not_eq_ofNat_sub`. -/
theorem notResult : Obligations.NotResult := fun dr sr x s =>
  ⟨decode_encode (i := .not dr sr x) rfl, _, rfl,
    not_eq_ofNat_sub (s.getReg sr) ▸ s.writeResult_resultWritten dr (~~~s.getReg sr)⟩

end Sys2Proof.Machine
end

section
/-!
The control transfers (41_control R58 to R62): what any jump and any call leaves, BR's test bit by bit, and that a call's
link is where RET goes.
-/

namespace Sys2Proof.Machine

open Sys2Proof.Spec

/-- What any jump leaves. -/
theorem State.setPc_jumped (s : State) (target : Word) : Jumped s target (s.setPc target) :=
  ⟨rfl, s.getReg_setPc target, rfl, ⟨rfl, rfl⟩, fun _ => rfl, rfl, rfl⟩

/-- What any call leaves. -/
theorem State.call_called (s : State) (target : Word) : Called s target (s.call target) :=
  ⟨rfl, s.getReg_call_link target, fun _ hr => s.getReg_call_ne target hr, rfl, ⟨rfl, rfl⟩, fun _ => rfl, rfl, rfl⟩

/-- Three bits are not all zero where one of them is set. -/
theorem bne_zero_eq_or_bits : ∀ b : BitVec 3, (b != 0#3) = (b.getLsbD 2 || b.getLsbD 1 || b.getLsbD 0) := by decide

/-- BR's test on the masked flag bits is the test of each condition bit against its flag (R58). -/
theorem State.branchTaken_eq (s : State) (nzp : BitVec 3) : s.branchTaken nzp =
    (nzp.getLsbD 2 && s.flagN || nzp.getLsbD 1 && s.flagZ || nzp.getLsbD 0 && s.flagP) := by
  rw [State.branchTaken, bne_zero_eq_or_bits]
  simp [State.flagN, State.flagZ, State.flagP]

/-- BR is a jump, to `pc` itself where it is not taken. -/
theorem execBr_eq_setPc (nzp : BitVec 3) (off9 : BitVec 9) (s : State) :
    execBr nzp off9 s = .next (s.setPc (if s.branchTaken nzp = true then s.pcRel9 off9 else s.pc)) := by
  unfold execBr
  split <;> rfl

/-- The words with JMP's opcode are RET's where the base is R7, and JMP's for every other base (R59). -/
theorem decode_jmp_word (x : BitVec 3) (base : Reg) (y : BitVec 6) :
    decode (0xC#4 ++ x ++ regBits base ++ y) = if base = 7 then .ret x y else .jmp x base y := by
  split
  · next hbase => subst hbase; exact decode_encode (i := .ret x y) rfl
  · next hbase => exact decode_encode (i := .jmp x base y) (bne_iff_ne.mpr hbase)

/-- Settles O20: BR is a jump, and its test is the one on the common flags (`State.branchTaken_eq`). -/
theorem branchTakenOnCommonFlag : Obligations.BranchTakenOnCommonFlag := fun nzp off9 s =>
  ⟨decode_encode (i := .br nzp off9) rfl, _, execBr_eq_setPc nzp off9 s,
    s.branchTaken_eq nzp ▸ s.setPc_jumped (if s.branchTaken nzp = true then s.pcRel9 off9 else s.pc)⟩

/-- Settles O21: both are the jump through a register, RET through R7. -/
theorem jumpAndReturnThroughRegister : Obligations.JumpAndReturnThroughRegister := fun x base y s =>
  ⟨decode_jmp_word x base y, ⟨_, rfl, s.setPc_jumped (s.getReg base)⟩, _, rfl, s.setPc_jumped (s.getReg 7)⟩

/-- Settles O22: the call's target is relative to the return address. -/
theorem jsrLinksAndJumps : Obligations.JsrLinksAndJumps := fun off11 s =>
  ⟨decode_encode (i := .jsr off11) rfl, _, rfl, s.call_called (s.pcRel11 off11)⟩

/-- Settles O23: the call's target is read in the state before the link (D7). -/
theorem jsrrReadsBaseBeforeLink : Obligations.JsrrReadsBaseBeforeLink := fun x base y s =>
  ⟨decode_encode (i := .jsrr x base y) rfl, _, rfl, s.call_called (s.getReg base)⟩

/-- Settles O24: either call leaves its incremented `pc` in R7, where RET goes. -/
theorem returnAfterCall : Obligations.ReturnAfterCall := by
  intro i s t u x y hcall h hu
  have hlink : t.getReg 7 = s.pc := by
    obtain ⟨off11, rfl⟩ | ⟨x', base, y', rfl⟩ := hcall
    · obtain rfl := Host.Outcome.next.inj h
      exact s.getReg_call_link (s.pcRel11 off11)
    · obtain rfl := Host.Outcome.next.inj h
      exact s.getReg_call_link (s.getReg base)
  exact ⟨u.jumpThrough 7, rfl, (u.jumpThrough_pc 7).trans (hu.trans hlink)⟩

end Sys2Proof.Machine
end

section
/-!
The loads and stores (42_load_store R63 to R69): the effective addresses as the rules write them, and that any load is
one read followed by the write of its result. What a store leaves is the write path's law (`State.memWrite_storeDone`).
-/

namespace Sys2Proof.Machine

open Sys2Proof.Spec

theorem State.pcRel9_eq (s : State) (off9 : BitVec 9) : s.pcRel9 off9 = s.pc + sext off9 :=
  congrArg (s.pc + ·) (sext16_eq_sext off9)

theorem State.baseOff6_eq (s : State) (base : Reg) (off6 : BitVec 6) :
    s.baseOff6 base off6 = s.getReg base + sext off6 :=
  congrArg (s.getReg base + ·) (sext16_eq_sext off6)

/-- Any load is one read, and then the result and its flags are written in the state that the read leaves. -/
theorem State.loadInto_readThenWritten (s : State) (dr : Reg) (ea : Word) :
    ∃ v u, s.memRead ea = (v, u) ∧ ReadDone s ea u ∧ ResultWritten u dr v (s.loadInto dr ea) :=
  ⟨_, _, rfl, s.memRead_readDone ea, (s.memRead ea).2.writeResult_resultWritten dr (s.memRead ea).1⟩

/-- Settles O33: LD is the load at the pc-relative address. -/
theorem loadPcRelative : Obligations.LoadPcRelative := by
  intro dr off9 s
  obtain ⟨v, u, hread, hdone, hwritten⟩ := s.loadInto_readThenWritten dr (s.pcRel9 off9)
  rw [State.pcRel9_eq] at hread hdone
  exact ⟨decode_encode (i := .ld dr off9) rfl, u, _, v, hread, rfl, hdone, hwritten⟩

/-- Settles O34: LDI is the read of the pointer, and then the load at it in the state which that read leaves. -/
theorem loadIndirect : Obligations.LoadIndirect := by
  intro dr off9 s
  have hpointer := s.memRead_readDone (s.pcRel9 off9)
  obtain ⟨v, u', hread, hdone, hwritten⟩ := (s.indirect9 off9).2.loadInto_readThenWritten dr (s.indirect9 off9).1
  rw [← State.pcRel9_eq]
  exact ⟨decode_encode (i := .ldi dr off9) rfl, _, _, v, u', _, rfl, hread, rfl, hpointer, hdone, hwritten⟩

/-- Settles O35: LDR is the load at the base plus offset, and the base is read before DR is written. -/
theorem loadBaseOffset : Obligations.LoadBaseOffset := by
  intro dr base off6 s
  obtain ⟨v, u, hread, hdone, hwritten⟩ := s.loadInto_readThenWritten dr (s.baseOff6 base off6)
  rw [State.baseOff6_eq] at hread hdone
  exact ⟨decode_encode (i := .ldr dr base off6) rfl, u, _, v, hread, rfl, hdone, hwritten⟩

/-- Settles O36: LEA writes the pc-relative address as its result, in the state it starts from. -/
theorem loadEffectiveAddress : Obligations.LoadEffectiveAddress := fun dr off9 s =>
  ⟨decode_encode (i := .lea dr off9) rfl, _, rfl,
    s.pcRel9_eq off9 ▸ s.writeResult_resultWritten dr (s.pcRel9 off9)⟩

/-- Settles O37: ST is the write at the pc-relative address. -/
theorem storePcRelative : Obligations.StorePcRelative := fun sr off9 s =>
  ⟨decode_encode (i := .st sr off9) rfl, _, rfl,
    s.pcRel9_eq off9 ▸ s.memWrite_storeDone (s.pcRel9 off9) (s.getReg sr)⟩

/-- Settles O38: STI is the read of the pointer, and then the write at it in the state which that read leaves. -/
theorem storeIndirect : Obligations.StoreIndirect := by
  intro sr off9 s
  have hpointer := s.memRead_readDone (s.pcRel9 off9)
  have hstore := (s.indirect9 off9).2.memWrite_storeDone (s.indirect9 off9).1 (s.getReg sr)
  rw [← State.pcRel9_eq]
  exact ⟨decode_encode (i := .sti sr off9) rfl, _, _, _, rfl, rfl, hpointer, hstore⟩

/-- Settles O39: STR is the write at the base plus offset. -/
theorem storeBaseOffset : Obligations.StoreBaseOffset := fun sr base off6 s =>
  ⟨decode_encode (i := .str sr base off6) rfl, _, rfl,
    s.baseOff6_eq base off6 ▸ s.memWrite_storeDone (s.baseOff6 base off6) (s.getReg sr)⟩

end Sys2Proof.Machine
end

section
/-!
GETC, OUT, IN and HALT, and the dispatch of TRAP (43_trap R70 to R72, R74, R76, R77): what any console write leaves, and
that the model's blocking read takes the character which the schedule names.
-/

namespace Sys2Proof.Machine

open Sys2Proof.Spec

/-- The model's low byte of a word is bits 7:0, as R72 has it. -/
theorem lowByte_eq_low (w : Word) : lowByte w = low w := rfl

/-- The model's zero extension is R10's. -/
theorem zext16_eq_zext (b : Byte) : zext16 b = zext b := (BitVec.ofNat_toNat 16 b).symm

/-- What any console write leaves. -/
theorem State.writeChars_wrote (s : State) (bs : List Byte) : Wrote s bs (s.writeChars bs) :=
  ⟨rfl, fun _ => rfl, rfl, rfl, ⟨rfl, rfl⟩, fun _ => rfl, rfl⟩

theorem State.writeChars_nil (s : State) : s.writeChars [] = s := by
  simp [State.writeChars, State.setConsole, Console.write]

theorem State.writeChars_writeChars (s : State) (bs cs : List Byte) :
    (s.writeChars bs).writeChars cs = s.writeChars (bs ++ cs) :=
  congrArg s.setConsole (s.console.write_write bs cs)

/-- A console write does not change what a read takes. -/
theorem Console.read_write (c : Console) (bs : List Byte) :
    (c.write bs).read = c.read.map fun r => (r.1, r.2.write bs) := by
  obtain ⟨pending, arrivals, tail, feed, output⟩ := c
  cases pending with
  | nil => simp only [Console.read, Console.write, Option.map_map, Function.comp_def]
  | cons b rest => rfl

/-- The next character is the first of the schedule, after any number of empty batches, or else the tail's. -/
theorem Console.nextArrival_eq_some_iff {arrivals : List (List Byte)} {tail : Option Byte} {b : Byte} {bs : List Byte}
    {rest : List (List Byte)} :
    Console.nextArrival arrivals tail = some (b, bs, rest) ↔
      (∃ n, arrivals = List.replicate n [] ++ (b :: bs) :: rest) ∨
      ((∀ batch ∈ arrivals, batch = []) ∧ tail = some b ∧ bs = [] ∧ rest = []) := by
  induction arrivals with
  | nil =>
    cases tail with
    | none => simp [Console.nextArrival]
    | some d =>
      simp [Console.nextArrival, eq_comm (a := ([] : List Byte)), eq_comm (a := ([] : List (List Byte)))]
  | cons batch batches ih =>
    cases batch with
    | nil =>
      rw [Console.nextArrival, ih]
      refine or_congr ⟨fun ⟨n, hn⟩ => ⟨n + 1, by simp [hn, List.replicate_succ]⟩, ?_⟩ (by simp)
      rintro ⟨_ | n, hn⟩
      · simp at hn
      · exact ⟨n, by simpa [List.replicate_succ] using hn⟩
    | cons c cs =>
      have hfirst : (∃ n, (c :: cs) :: batches = List.replicate n [] ++ (b :: bs) :: rest) ↔
          (c :: cs) :: batches = (b :: bs) :: rest := by
        refine ⟨?_, fun h => ⟨0, h⟩⟩
        rintro ⟨_ | n, hn⟩
        · exact hn
        · simp [List.replicate_succ] at hn
      rw [hfirst]
      simp [Console.nextArrival, and_assoc]

/-- No character is next exactly where every batch is empty and the tail is silent. -/
theorem Console.nextArrival_eq_none_iff {arrivals : List (List Byte)} {tail : Option Byte} :
    Console.nextArrival arrivals tail = none ↔ (∀ batch ∈ arrivals, batch = []) ∧ tail = none := by
  induction arrivals with
  | nil => simp [Console.nextArrival]
  | cons batch batches ih =>
    cases batch with
    | nil => simp [Console.nextArrival, ih]
    | cons c cs => simp [Console.nextArrival]

/-- The model's blocking read is `ConsoleRead` over the schedule (R13, log entry 4). -/
theorem Console.read_eq_some_iff {c c' : Console} {b : Byte} : c.read = some (b, c') ↔ Reads c b c' := by
  obtain ⟨pending, arrivals, tail, feed, output⟩ := c
  cases pending with
  | cons d rest => simp [Console.read, Reads, eq_comm]
  | nil =>
    simp only [Console.read, Reads, Option.map_eq_some_iff, Prod.exists, Console.nextArrival_eq_some_iff]
    constructor
    · rintro ⟨_, bs, rest, ⟨n, hn⟩ | ⟨hempty, htail, rfl, rfl⟩, h⟩
      · cases h
        exact .inr (.inl ⟨trivial, n, bs, rest, hn, rfl⟩)
      · cases h
        exact .inr (.inr ⟨trivial, hempty, htail, rfl⟩)
    · rintro (⟨_, ⟨⟩, -⟩ | ⟨-, n, bs, rest, hn, rfl⟩ | ⟨-, hempty, htail, rfl⟩)
      · exact ⟨b, bs, rest, .inl ⟨n, hn⟩, rfl⟩
      · exact ⟨b, [], [], .inr ⟨hempty, htail, rfl, rfl⟩, rfl⟩

theorem Console.read_eq_none_iff {c : Console} :
    c.read = none ↔ c.pending = [] ∧ (∀ batch ∈ c.arrivals, batch = []) ∧ c.tail = none := by
  obtain ⟨pending, arrivals, tail, feed, output⟩ := c
  cases pending with
  | nil => simp [Console.read, Console.nextArrival_eq_none_iff]
  | cons b rest => simp [Console.read]

theorem Console.not_reads_iff {c : Console} : (¬∃ b c', Reads c b c') ↔ c.read = none := by
  simp only [← Console.read_eq_some_iff, Option.eq_none_iff_forall_ne_some, Prod.forall, not_exists]

theorem State.getcRoutine_of_read {s : State} {b : Byte} {c' : Console} (h : s.console.read = some (b, c')) :
    s.getcRoutine = .next ((s.setConsole c').setReg 0 (zext b)) := by
  simp only [State.getcRoutine, h, zext16_eq_zext]

theorem State.inRoutine_of_read {s : State} {b : Byte} {c' : Console} (h : s.console.read = some (b, c')) :
    s.inRoutine = .next ((s.setConsole (c'.write (Config.inPrompt ++ [b]))).setReg 0 (zext b)) := by
  simp only [State.inRoutine, State.writeChars_console, Console.read_write, h, Option.map_some, zext16_eq_zext,
    ← Console.write_write]
  rfl

/-- GETC holds exactly where the read does. -/
theorem State.getcRoutine_holds_iff (s : State) :
    s.getcRoutine = .fault (.inputNeverArrives s) ↔ s.console.read = none := by
  unfold State.getcRoutine
  split
  · next h => simp [h]
  · next h => simp [h]

/-- IN holds exactly where the read does, with its prompt written. -/
theorem State.inRoutine_holds_iff (s held : State) :
    s.inRoutine = .fault (.inputNeverArrives held) ↔
      s.console.read = none ∧ held = s.writeChars Config.inPrompt := by
  cases h : s.console.read with
  | some r => simp [State.inRoutine_of_read h]
  | none => simp [State.inRoutine, Console.read_write, h, eq_comm]

/-- Settles O41: the model's read takes the schedule's character (`Console.read_eq_some_iff`), and R0 takes that. -/
theorem getcReadsOneCharacter : Obligations.GetcReadsOneCharacter := by
  intro x s b c' hreads
  have hread := Console.read_eq_some_iff.mpr hreads
  exact ⟨_, State.getcRoutine_of_read hread, State.getReg_setReg_self _ 0 _, fun _ hr => State.getReg_setReg_ne _ _ hr,
    rfl, (Console.read_output hread).1, rfl, rfl, ⟨rfl, rfl⟩, fun _ => rfl, rfl⟩

/-- Settles O42: the read is the one of the console before the prompt (`Console.read_write`). -/
theorem inPromptsReadsAndEchoes : Obligations.InPromptsReadsAndEchoes := by
  intro x s b c' hreads
  have hread := Console.read_eq_some_iff.mpr hreads
  have hconsole : c'.write (Config.inPrompt ++ [b]) =
      { c' with output := s.console.output ++ Config.inPrompt ++ [b] } := by
    rw [Console.write, (Console.read_output hread).1, List.append_assoc]
  exact ⟨_, State.inRoutine_of_read hread, State.getReg_setReg_self _ 0 _, fun _ hr => State.getReg_setReg_ne _ _ hr,
    hconsole, rfl, rfl, ⟨rfl, rfl⟩, fun _ => rfl, rfl⟩

/-- Settles O43: all three hold exactly where the model's read takes nothing. -/
theorem getcAndInHoldWithoutInput : Obligations.GetcAndInHoldWithoutInput := by
  intro x s
  rw [Console.not_reads_iff]
  refine ⟨Console.read_eq_none_iff, s.getcRoutine_holds_iff.symm, fun h => ?_, fun ⟨held, h, _⟩ => ?_⟩
  · exact ⟨_, (s.inRoutine_holds_iff _).mpr ⟨h, rfl⟩, s.writeChars_wrote Config.inPrompt⟩
  · exact ((s.inRoutine_holds_iff held).mp h).1

/-- Settles O44: OUT is the write of the low byte of R0. -/
theorem outWritesLowByteOfR0 : Obligations.OutWritesLowByteOfR0 := fun x s =>
  ⟨decode_encode (i := .out x) rfl, _, rfl, s.writeChars_wrote [low (s.getReg 0)]⟩

/-- Settles O40: each vector's branch of the dispatch is its routine, and OUT's effect is the write of R0's low byte. -/
theorem trapDispatchesByVector : Obligations.TrapDispatchesByVector := fun _ s =>
  ⟨rfl, rfl, rfl, rfl, rfl, rfl, _, rfl, s.writeChars_wrote [low (s.getReg 0)]⟩

/-- Settles O48: HALT is the write of the notice and the change of the run state. -/
theorem haltWritesNoticeAndStops : Obligations.HaltWritesNoticeAndStops := by
  intro x s
  obtain ⟨hconsole, hregs, hcond, hpc, ⟨-, hrecord⟩, hcells, hdraws⟩ := s.writeChars_wrote Config.haltNotice
  exact ⟨decode_encode (i := .halt x) rfl, (s.writeChars Config.haltNotice).enterHalted, rfl, rfl, hrecord, hconsole,
    hregs, hcond, hpc, hcells, hdraws⟩

theorem execTrap_of_unsupported {vec : BitVec 8} (h : trapVectorSupported vec = false) (x : BitVec 4) (s : State) :
    execTrap x vec s = .next (s.raiseFault .unsupportedTrap (encode (.trap x vec))) := by
  obtain ⟨h20, h21, h22, h23, h24, h25⟩ := trapVectorSupported_eq_false h
  simp only [execTrap, h20, h21, h22, h23, h24, h25, if_false]

/-- Settles O49: no routine has the vector, so its word is TRAP's own and TRAP takes the fault. -/
theorem unsupportedTrapFaults : Obligations.UnsupportedTrapFaults := fun x vec s h =>
  ⟨decode_encode (i := .trap x vec) (by rw [Instr.wellFormed, h]; rfl), rfl, _, execTrap_of_unsupported h x s,
    s.raiseFault_faultTaken .unsupportedTrap _⟩

end Sys2Proof.Machine
end

section
/-!
PUTS and PUTSP (43_trap R73, R75): the bounded string loop is the spec's unbounded one, and over a string in plain cells
it writes the characters of each word.
-/

namespace Sys2Proof.Machine

open Sys2Proof.Spec

theorem highByte_eq_high (w : Word) : highByte w = high w := by
  rw [highByte, high, BitVec.extractLsb', Nat.shiftRight_eq_div_pow]

theorem putsChars_eq : putsChars = fun w => [low w] := rfl

theorem putspChars_eq_packed : putspChars = packed := by
  funext w
  rw [putspChars, packed, highByte_eq_high, lowByte_eq_low]
  split <;> rfl

section
variable {chars : Word → List Byte}

/-- Where the bounded loop ends, the unbounded one ends in the same state. -/
theorem stringRun_of_stringLoop {fuel : Nat} {a : Word} {s t : State}
    (h : State.stringLoop chars fuel a s = some t) : StringRun chars a s t := by
  induction fuel generalizing a s with
  | zero => cases h
  | succ fuel ih =>
    simp only [State.stringLoop] at h
    split at h
    · next hzero => cases h; exact .stop hzero
    · next hword => exact .more hword (ih h)

/-- Where the unbounded loop ends, so does the bounded one on as many words as that took. -/
theorem stringRun_exists_stringLoop {a : Word} {s t : State} (h : StringRun chars a s t) :
    ∃ fuel, State.stringLoop chars fuel a s = some t := by
  induction h with
  | stop hzero => exact ⟨1, by simp only [State.stringLoop, if_pos hzero]⟩
  | more hword _ ih =>
    obtain ⟨fuel, hloop⟩ := ih
    exact ⟨fuel + 1, by simpa only [State.stringLoop, if_neg hword] using hloop⟩

/-- The unbounded loop ends in one state at most. -/
theorem stringRun_unique {a : Word} {s t u : State} (ht : StringRun chars a s t) (hu : StringRun chars a s u) :
    t = u := by
  induction ht with
  | stop hzero =>
    cases hu with
    | stop => rfl
    | more hword => exact absurd hzero hword
  | more hword _ ih =>
    cases hu with
    | stop hzero => exact absurd hzero hword
    | more _ hrest => exact ih hrest

/-- The string routine completes exactly where the unbounded loop ends, in its state: the bound is exact
(`stringLoop_fuel_exact`). -/
theorem State.stringRoutine_eq_next_iff {s t : State} :
    s.stringRoutine chars = .next t ↔ StringRun chars (s.getReg 0) s t := by
  refine ⟨fun h => stringRun_of_stringLoop (State.stringRoutine_next h), fun hrun => ?_⟩
  obtain ⟨u, hloop, hnext⟩ | ⟨hnone, -⟩ := s.stringRoutine_cases chars
  · rw [hnext, stringRun_unique hrun (stringRun_of_stringLoop hloop)]
  · obtain ⟨fuel, hsome⟩ := stringRun_exists_stringLoop hrun
    rw [stringLoop_fuel_exact hnone fuel] at hsome
    cases hsome

/-- The string routine never ends exactly where the unbounded loop ends in no state. -/
theorem State.stringRoutine_eq_fault_iff {s : State} :
    s.stringRoutine chars = .fault .stringNeverEnds ↔ ¬∃ t, StringRun chars (s.getReg 0) s t := by
  simp only [← State.stringRoutine_eq_next_iff]
  obtain ⟨t, -, h⟩ | ⟨-, h⟩ := s.stringRoutine_cases chars
  · simp [h]
  · simp [h]

/-- A non-empty string is its first word, in a plain cell, and the string from the next address on. -/
theorem stringAt_cons {s : State} {a w : Word} {ws : List Word} (h : StringAt s a (w :: ws)) :
    Plain a ∧ s.mem.read a = w ∧ w ≠ 0x0000#16 ∧ StringAt s (a + 1) ws := by
  have hnext (i : Nat) : a + 1 + BitVec.ofNat 16 i = a + BitVec.ofNat 16 (i + 1) := by
    rw [BitVec.add_assoc, BitVec.add_comm 1, BitVec.ofNat_add]
    rfl
  obtain ⟨hwords, hend⟩ := h
  obtain ⟨hplain, hread, hne⟩ := hwords 0 (Nat.succ_pos _)
  obtain rfl : w = s.mem.read a := by simpa using hread
  refine ⟨by simpa using hplain, rfl, by simpa using hne, fun i hi => ?_, ?_⟩
  · rw [hnext]
    exact hwords (i + 1) (Nat.succ_lt_succ hi)
  · rw [hnext]
    exact hend

/-- The loop over a string in plain cells writes the characters of its words, and does nothing else. -/
theorem stringRun_of_stringAt {a : Word} {s : State} {ws : List Word} (h : StringAt s a ws) :
    StringRun chars a s (s.writeChars (ws.flatMap chars)) := by
  induction ws generalizing a s with
  | nil =>
    obtain ⟨-, hplain, hzero⟩ := h
    simp only [List.length_nil, BitVec.add_zero] at hplain hzero
    have hread := s.memRead_plain hplain.1 hplain.2
    have hstop : StringRun chars a s (s.memRead a).2 := .stop (by rw [hread]; exact hzero)
    rw [hread] at hstop
    rwa [List.flatMap_nil, State.writeChars_nil]
  | cons w ws ih =>
    obtain ⟨hplain, hw, hne, hrest⟩ := stringAt_cons h
    have hread := s.memRead_plain hplain.1 hplain.2
    rw [hw] at hread
    refine .more (by rw [hread]; exact hne) ?_
    rw [hread, List.flatMap_cons, ← State.writeChars_writeChars]
    exact ih (s := s.writeChars (chars w)) hrest

/-- Where R0 points at a string in plain cells, a string routine writes the characters of its words and completes. -/
theorem State.stringRoutine_of_stringAt {s : State} {ws : List Word} (h : StringAt s (s.getReg 0) ws) :
    s.stringRoutine chars = .next (s.writeChars (ws.flatMap chars)) :=
  State.stringRoutine_eq_next_iff.mpr (stringRun_of_stringAt h)

end

/-- Settles O47: both are string routines, whose bound is exact. -/
theorem stringRoutinesRefineTheLoop : Obligations.StringRoutinesRefineTheLoop := by
  intro x s
  rw [← putsChars_eq, ← putspChars_eq_packed]
  exact ⟨fun _ => State.stringRoutine_eq_next_iff, State.stringRoutine_eq_fault_iff,
    fun _ => State.stringRoutine_eq_next_iff, State.stringRoutine_eq_fault_iff⟩

/-- Settles O45: the characters of PUTS are one low byte for each word. -/
theorem putsWritesTheString : Obligations.PutsWritesTheString := by
  intro x s ws h
  rw [List.map_eq_flatMap]
  exact ⟨_, State.stringRoutine_of_stringAt h, s.writeChars_wrote _⟩

/-- Settles O46: the characters of PUTSP are those of R75 (`putspChars_eq_packed`). -/
theorem putspWritesThePackedString : Obligations.PutspWritesThePackedString := by
  intro x s ws h
  rw [← putspChars_eq_packed]
  exact ⟨_, State.stringRoutine_of_stringAt h, s.writeChars_wrote _⟩

end Sys2Proof.Machine
end

section
/-!
Faults at the level of a step (60_exceptions R78, R79): a word that raises a cause decodes to the instruction that takes
its fault, over the state that the fetch left.
-/

namespace Sys2Proof.Machine

open Sys2Proof.Safety Sys2Proof.Spec

section
variable {w : Word} (s : State)

theorem exec_decode_reserved1000 (ho : opcode w = 0x8#4) :
    exec (decode w) s = .next (s.raiseFault .reservedOpcode w) := by
  have hdec : decode w = .reserved1000 (field w 0 12) := by simp [decode, ho]
  have hword : encode (.reserved1000 (field w 0 12)) = w := join_op_low12 ho
  rw [hdec, exec, execReserved1000, hword]

theorem exec_decode_reserved1101 (ho : opcode w = 0xD#4) :
    exec (decode w) s = .next (s.raiseFault .reservedOpcode w) := by
  have hdec : decode w = .reserved1101 (field w 0 12) := by simp [decode, ho]
  have hword : encode (.reserved1101 (field w 0 12)) = w := join_op_low12 ho
  rw [hdec, exec, execReserved1101, hword]

theorem exec_decode_unsupportedTrap (ho : opcode w = 0xF#4) (hv : trapVectorSupported (field w 0 8) = false) :
    exec (decode w) s = .next (s.raiseFault .unsupportedTrap w) := by
  have hdec : decode w = decodeTrap (field w 8 4) (field w 0 8) := by simp [decode, ho]
  have hword : encode (.trap (field w 8 4) (field w 0 8)) = w := join_op_x_vec ho
  rw [hdec, decodeTrap_of_unsupported hv, exec, execTrap_of_unsupported hv, hword]

/-- An illegal word takes its fault with itself on record, its don't-care bits too (R24, R78). -/
theorem exec_decode_of_causeOf {cause : FaultCause} (h : causeOf w = some cause) :
    exec (decode w) s = .next (s.raiseFault cause w) := by
  unfold causeOf at h
  split_ifs at h with hreserved htrap
  · obtain rfl := Option.some.inj h
    obtain ho | ho := hreserved
    · exact exec_decode_reserved1000 s ho
    · exact exec_decode_reserved1101 s ho
  · obtain rfl := Option.some.inj h
    exact exec_decode_unsupportedTrap s htrap.1 htrap.2
end

/-- Settles O51: the step takes the fault over the fetch's state, and the fetch keeps the registers and `cond`. -/
theorem illegalWordStepsToFaulted : Obligations.IllegalWordStepsToFaulted := by
  intro s cause hrun hcause
  have hfetch := fetched_traffic s
  obtain ⟨hfaulted, hrecord, hpc, hregs, hcond, hcells, hconsole⟩ :=
    ((fetched s).2.setPc (s.pc + 1)).raiseFault_faultTaken cause (fetched s).1
  refine ⟨_, (step_of_running hrun).trans (exec_decode_of_causeOf _ hcause), hfaulted, hpc, ?_,
    fun r => (hregs r).trans (hfetch.getReg r), hcond.trans hfetch.cond, hcells, hconsole⟩
  rw [hrecord, State.setPc_pc, BitVec.add_sub_cancel]

end Sys2Proof.Machine
end

section
/-!
The reset state, the loader and the launch (70_reset_and_hazards R89 to R91), and the normal end of a run (R96): what
each step of a load says of the files and the memory, and that the launched state differs from reset in memory alone.
-/

namespace Sys2Proof.Machine

open Sys2Proof.Safety

/-- The invariant at reset rests on the memory alone, which is what an image changes. -/
theorem inv_reset_withMem {m : Memory} (h : m.wf) : Inv (State.reset.withMem m) :=
  ⟨h, .inr (.inl rfl), faultRecordSound_of_none nofun rfl⟩

/-- Settles O56: the invariant over the empty memory. -/
theorem resetMeetsInvariant : Obligations.ResetMeetsInvariant := inv_reset_withMem Memory.wf_nil

/-- Settles O55: the fields of reset; the empty list reads as zero. -/
theorem resetStateAsSpecified : Obligations.ResetStateAsSpecified :=
  ⟨rfl, rfl, rfl, rfl, Memory.read_nil, rfl⟩

/-- A true fault record leaves HALTED without one (R24). -/
theorem normalEnd_iff_halted {s : State} (h : FaultRecordSound s) : NormalEnd s ↔ s.run = .halted := by
  obtain ⟨hiff, -⟩ := h
  refine ⟨fun hend => hend.1, fun hrun => ⟨hrun, ?_⟩⟩
  by_contra hrecord
  have hfaulted := hiff.mpr hrecord
  simp [hrun] at hfaulted

/-- Settles O53: the step keeps the record true, so a normal end is HALTED, which only HALT reaches. -/
theorem normalEndExactlyByHalt : Obligations.NormalEndExactlyByHalt := by
  intro s t hinv hstep
  obtain ⟨hrun, -⟩ := step_next hstep
  obtain ⟨-, -, hsound⟩ := stepKeepsInvariant s t hinv hstep
  have hexec := step_of_running hrun ▸ hstep
  obtain ⟨hhalt, -⟩ := onlyHaltHaltsAndOnlyIllegalFaults _ _ t hexec ((fetched_traffic s).run.trans hrun)
  rw [normalEnd_iff_halted hsound]
  exact ⟨hhalt, fun hfaulted => by simp [hfaulted]⟩

/-- What a cell reads as after words were stored from `k` on. -/
theorem Memory.lookup_storeWords {m : Memory} (hm : m.wf) {k : Nat} {ws : List Word}
    (h : k + ws.length ≤ Config.memWords) (j : Nat) :
    (m.storeWords k ws).lookup j = if k ≤ j then (ws[j - k]?).getD (m.lookup j) else m.lookup j := by
  induction ws generalizing m k with
  | nil => simp [Memory.storeWords]
  | cons w ws ih =>
    rw [List.length_cons] at h
    rw [Memory.storeWords, ih (Memory.wf_insert hm (by omega) w) (by omega)]
    obtain hlt | rfl | hgt := Nat.lt_trichotomy j k
    · rw [if_neg (by omega), if_neg (by omega), Memory.lookup_insert_ne m w hlt.ne]
    · simp [Memory.lookup_insert_self hm]
    · have hidx : j - k = j - (k + 1) + 1 := by omega
      rw [if_pos (Nat.succ_le_of_lt hgt), if_pos hgt.le, Memory.lookup_insert_ne m w hgt.ne', hidx, List.getElem?_cons_succ]

theorem Image.fits_iff {im : Image} : im.fits = true ↔ im.origin.toNat + im.words.length ≤ Config.memWords :=
  decide_eq_true_iff

/-- An image that fits is stored whole (R90). -/
theorem Memory.loadImage_of_fits (m : Memory) {im : Image} (h : im.fits = true) :
    m.loadImage im = some (m.storeWords im.origin.toNat im.words) := by
  have hend := Image.fits_iff.mp h
  rw [Memory.loadImage, h, Bool.true_or, if_pos rfl, List.take_of_length_le (by omega)]

/-- A load keeps the canonical form, one that truncates too. -/
theorem Memory.wf_loadImage {m m' : Memory} {im : Image} (hm : m.wf) (h : m.loadImage im = some m') : m'.wf := by
  unfold Memory.loadImage at h
  split at h
  · obtain rfl := Option.some.inj h
    have horigin : im.origin.toNat < Config.memWords := im.origin.isLt
    exact Memory.wf_storeWords hm (by rw [List.length_take]; omega)
  · cases h

theorem Memory.loadImages_cons (m : Memory) (im : Image) (ims : List Image) :
    m.loadImages (im :: ims) = (m.loadImage im).bind fun m' => m'.loadImages ims := by
  rw [Memory.loadImages]
  cases m.loadImage im <;> rfl

theorem Memory.loadImages_append (m : Memory) (ims jms : List Image) :
    m.loadImages (ims ++ jms) = (m.loadImages ims).bind fun m' => m'.loadImages jms := by
  induction ims generalizing m with
  | nil => rfl
  | cons im ims ih => simp only [List.cons_append, Memory.loadImages_cons, ih, Option.bind_assoc]

theorem Memory.loadImages_singleton (m : Memory) (im : Image) : m.loadImages [im] = m.loadImage im :=
  (m.loadImages_cons im []).trans (Option.bind_fun_some _)

theorem Memory.wf_loadImages {m m' : Memory} {ims : List Image} (hm : m.wf) (h : m.loadImages ims = some m') :
    m'.wf := by
  induction ims generalizing m with
  | nil => exact Option.some.inj h ▸ hm
  | cons im ims ih =>
    rw [Memory.loadImages_cons] at h
    obtain ⟨m₁, hfirst, hrest⟩ := Option.bind_eq_some_iff.mp h
    exact ih (Memory.wf_loadImage hm hfirst) hrest

/-- Settles O58: an image that fits is stored whole, and a list of images loads by its parts. -/
theorem imagesLoadInOrder : Obligations.ImagesLoadInOrder := by
  refine ⟨fun m im hm hfits => ?_, fun m ims im => ?_⟩
  · have hend := Image.fits_iff.mp hfits
    exact ⟨_, m.loadImage_of_fits hfits, Memory.wf_storeWords hm hend,
      fun a => Memory.lookup_storeWords hm hend a.toNat⟩
  · simp only [Memory.loadImages_append, Memory.loadImages_singleton]

/-- A stream of words has two bytes a word (R34). -/
theorem wordsOfBytes_length {bytes : List Byte} {ws : List Word} (h : wordsOfBytes bytes = some ws) :
    bytes.length = 2 * ws.length := by
  induction bytes using wordsOfBytes.induct generalizing ws with
  | case1 => obtain rfl := Option.some.inj h; rfl
  | case2 => cases h
  | case3 hi lo rest ih =>
    obtain ⟨us, hus, rfl⟩ := Option.map_eq_some_iff.mp h
    simp only [List.length_cons, ih hus]
    omega

/-- The file of an image holds the origin and the words (R90). -/
theorem parseImage_length {bytes : List Byte} {im : Image} (h : parseImage bytes = some im) :
    bytes.length = 2 * (im.words.length + 1) := by
  unfold parseImage at h
  split at h
  · next hwords => obtain rfl := Option.some.inj h; exact wordsOfBytes_length hwords
  · cases h

/-- Files parse only where each is an image (R91). -/
theorem parseImages_mem {files : List (List Byte)} {ims : List Image} (h : parseImages files = some ims)
    {f : List Byte} (hf : f ∈ files) : ∃ im, parseImage f = some im := by
  induction files generalizing ims with
  | nil => cases hf
  | cons file files ih =>
    unfold parseImages at h
    split at h
    · next im ims' hfile hfiles =>
      obtain rfl | hf := List.mem_cons.mp hf
      · exact ⟨im, hfile⟩
      · exact ih hfiles hf
    · cases h

/-- What a launch says: the files are images, and the state is reset over the memory that they load. -/
theorem boot_eq_some {files : List (List Byte)} {s : State} (h : boot files = some s) :
    ∃ ims m, parseImages files = some ims ∧ Memory.loadImages [] ims = some m ∧ s = State.reset.withMem m := by
  unfold boot at h
  split at h
  · next ims hparse =>
    obtain ⟨m, hload, rfl⟩ := Option.map_eq_some_iff.mp h
    exact ⟨ims, m, hparse, hload, rfl⟩
  · cases h

/-- Settles O59: the memory that images load over the empty one is canonical. -/
theorem launchedCoreIsReset : Obligations.LaunchedCoreIsReset := by
  intro files s h
  obtain ⟨ims, m, -, hload, rfl⟩ := boot_eq_some h
  exact ⟨rfl, inv_reset_withMem (Memory.wf_loadImages Memory.wf_nil hload)⟩

/-- Settles O60: a launch needs every file to be an image, whose length is even and not zero. -/
theorem loadFailureLaunchesNothing : Obligations.LoadFailureLaunchesNothing := by
  refine ⟨rfl, fun files f hf hbad => Option.eq_none_iff_forall_ne_some.mpr fun s h => ?_⟩
  obtain ⟨ims, -, hparse, -, -⟩ := boot_eq_some h
  obtain ⟨im, him⟩ := parseImages_mem hparse hf
  have hlen := parseImage_length him
  obtain rfl | hodd := hbad
  · rw [List.length_nil] at hlen; omega
  · omega

end Sys2Proof.Machine
end
